-- ==== Sys2Proof/Word.lean ====
section
/-! DEFINITION. The widths of the words that the ports, the ROM and the cyclic domain use (R8, R9, R13).
Bit `i` of every word has weight `2^i` (R9, R46). -/

namespace Sys2Proof

/-- An angle and a phase, `u256` (R62, R80). -/
abbrev Angle := BitVec 256

/-- A request word `REQ = {OP, ANGLE}`, 257 bits (R60). -/
abbrev Request := BitVec 257

/-- A response word `RSP` and the register `r_q`, 64 bits (R21, R63). -/
abbrev Response := BitVec 64

/-- A cyclic angle, `u30` (R64, R82). -/
abbrev Cyclic := BitVec 30

/-- A ROM word, 32 bits (R40, R65). -/
abbrev RomWord := BitVec 32

/-- A table index, `u8` (R90, R96). -/
abbrev TableIndex := BitVec 8

/-- An interpolation fraction, `u16`, a numerator over `2^16` (R91). -/
abbrev Fraction := BitVec 16

end Sys2Proof
end

