-- ==== Sys2Proof/Config.lean ====
section
/-! DEFINITION. The parameters of rule R6 at the values the spec fixes, and the free values of the two cases the spec
leaves open at the ports (R173). `ANGLE_W` and `RESULT_W` are the widths of Sys2Proof/Word.lean. -/

namespace Sys2Proof.Config

/-- `PI_FP`, the integer value of pi at scale 10^18 (R6, D3). -/
abbrev piFp : Nat := 3141592653589793238

/-- `TWO_PI = 2 · PI_FP`, the modulus of the normalizer (R6, D3). -/
abbrev twoPi : Nat := 6283185307179586476

/-- `PI_OVER_TWO = PI_FP / 2`, the phase shift of COS (R6, D3). -/
abbrev piOverTwo : Nat := 1570796326794896619

/-- `SCALE = 10^18`, the fixed-point scale of input and output (R6). -/
abbrev scale : Nat := 1000000000000000000

/-- `AMP = 2^31 − 1`, full-scale table amplitude and rescale divisor (R6). -/
abbrev amp : Nat := 2147483647

/-- `2^CYCLE_BITS`, the cyclic units in a full turn (R6). -/
abbrev cycleUnits : Nat := 1073741824

/-- `TABLE_N`, the number of ROM words (R6, R40). -/
abbrev tableN : Nat := 257

/-- The value captured at an accepting edge at which a bit of `in_op` or `in_angle` is unknown: "any 64-bit value"
(R173, I4). The argument counts the draws. Nothing constrains it (notes/assumptions/5.md, DESIGN CHOICE of form, safe). -/
opaque freeResponse : Nat → Response

/-- Whether a request is accepted when `in_valid` is unknown and `in_ready` is 1: "both acceptance and non-acceptance are
possible" (R173, I4). Nothing constrains it (notes/assumptions/5.md, DESIGN CHOICE of form, safe). -/
opaque freeAccept : Nat → Bool

end Sys2Proof.Config
end

