-- ==== Sys2Proof/Machine/Rom.lean ====
section
/-! DEFINITION. The amplitude ROM: 257 words of 32 bits at the word indices 0 to 256, read-only (R40 to R49). -/

namespace Sys2Proof.Machine

/-- The contents of the whole address space: one 32-bit word for each index 0 to 256 (R32, R40, R49). The block moves no
bytes, so the unit is the word (R46; notes/assumptions/1.md). -/
abbrev Memory := Vector RomWord Config.tableN

/-- `ROM[0]` to `ROM[31]` (R42). -/
def romWords0 : List RomWord :=
  [ 0x00000000#32, 0x00C90F88#32, 0x01921D20#32, 0x025B26D7#32,
    0x03242ABF#32, 0x03ED26E6#32, 0x04B6195D#32, 0x057F0035#32,
    0x0647D97C#32, 0x0710A345#32, 0x07D95B9E#32, 0x08A2009A#32,
    0x096A9049#32, 0x0A3308BC#32, 0x0AFB6805#32, 0x0BC3AC35#32,
    0x0C8BD35E#32, 0x0D53DB92#32, 0x0E1BC2E4#32, 0x0EE38766#32,
    0x0FAB272B#32, 0x1072A048#32, 0x1139F0CF#32, 0x120116D5#32,
    0x12C8106E#32, 0x138EDBB1#32, 0x145576B1#32, 0x151BDF85#32,
    0x15E21444#32, 0x16A81305#32, 0x176DD9DE#32, 0x183366E8#32 ]

/-- `ROM[32]` to `ROM[63]` (R42). -/
def romWords1 : List RomWord :=
  [ 0x18F8B83C#32, 0x19BDCBF3#32, 0x1A82A025#32, 0x1B4732EF#32,
    0x1C0B826A#32, 0x1CCF8CB3#32, 0x1D934FE5#32, 0x1E56CA1E#32,
    0x1F19F97B#32, 0x1FDCDC1B#32, 0x209F701C#32, 0x2161B39F#32,
    0x2223A4C5#32, 0x22E541AF#32, 0x23A6887E#32, 0x24677757#32,
    0x25280C5D#32, 0x25E845B6#32, 0x26A82185#32, 0x27679DF4#32,
    0x2826B928#32, 0x28E5714A#32, 0x29A3C485#32, 0x2A61B101#32,
    0x2B1F34EB#32, 0x2BDC4E6F#32, 0x2C98FBBA#32, 0x2D553AFB#32,
    0x2E110A62#32, 0x2ECC681E#32, 0x2F875262#32, 0x3041C760#32 ]

/-- `ROM[64]` to `ROM[95]` (R42). -/
def romWords2 : List RomWord :=
  [ 0x30FBC54D#32, 0x31B54A5D#32, 0x326E54C7#32, 0x3326E2C2#32,
    0x33DEF287#32, 0x3496824F#32, 0x354D9056#32, 0x36041AD9#32,
    0x36BA2013#32, 0x376F9E46#32, 0x382493B0#32, 0x38D8FE93#32,
    0x398CDD32#32, 0x3A402DD1#32, 0x3AF2EEB7#32, 0x3BA51E29#32,
    0x3C56BA70#32, 0x3D07C1D5#32, 0x3DB832A5#32, 0x3E680B2C#32,
    0x3F1749B7#32, 0x3FC5EC97#32, 0x4073F21D#32, 0x4121589A#32,
    0x41CE1E64#32, 0x427A41D0#32, 0x4325C135#32, 0x43D09AEC#32,
    0x447ACD50#32, 0x452456BC#32, 0x45CD358F#32, 0x46756827#32 ]

/-- `ROM[96]` to `ROM[127]` (R42). -/
def romWords3 : List RomWord :=
  [ 0x471CECE6#32, 0x47C3C22E#32, 0x4869E664#32, 0x490F57EE#32,
    0x49B41533#32, 0x4A581C9D#32, 0x4AFB6C97#32, 0x4B9E038F#32,
    0x4C3FDFF3#32, 0x4CE10034#32, 0x4D8162C3#32, 0x4E210617#32,
    0x4EBFE8A4#32, 0x4F5E08E2#32, 0x4FFB654C#32, 0x5097FC5E#32,
    0x5133CC94#32, 0x51CED46E#32, 0x5269126E#32, 0x53028517#32,
    0x539B2AEF#32, 0x5433027D#32, 0x54CA0A4A#32, 0x556040E2#32,
    0x55F5A4D2#32, 0x568A34A9#32, 0x571DEEF9#32, 0x57B0D255#32,
    0x5842DD54#32, 0x58D40E8C#32, 0x59646497#32, 0x59F3DE12#32 ]

/-- `ROM[128]` to `ROM[159]` (R42). -/
def romWords4 : List RomWord :=
  [ 0x5A827999#32, 0x5B1035CE#32, 0x5B9D1153#32, 0x5C290ACC#32,
    0x5CB420DF#32, 0x5D3E5236#32, 0x5DC79D7B#32, 0x5E50015D#32,
    0x5ED77C89#32, 0x5F5E0DB2#32, 0x5FE3B38D#32, 0x60686CCE#32,
    0x60EC382F#32, 0x616F146B#32, 0x61F1003E#32, 0x6271FA68#32,
    0x62F201AC#32, 0x637114CC#32, 0x63EF328F#32, 0x646C59BF#32,
    0x64E88925#32, 0x6563BF91#32, 0x65DDFBD2#32, 0x66573CBB#32,
    0x66CF811F#32, 0x6746C7D7#32, 0x67BD0FBC#32, 0x683257AA#32,
    0x68A69E80#32, 0x6919E31F#32, 0x698C246B#32, 0x69FD614A#32 ]

/-- `ROM[160]` to `ROM[191]` (R42). -/
def romWords5 : List RomWord :=
  [ 0x6A6D98A3#32, 0x6ADCC964#32, 0x6B4AF278#32, 0x6BB812D0#32,
    0x6C24295F#32, 0x6C8F351B#32, 0x6CF934FB#32, 0x6D6227F9#32,
    0x6DCA0D14#32, 0x6E30E349#32, 0x6E96A99C#32, 0x6EFB5F11#32,
    0x6F5F02B1#32, 0x6FC19384#32, 0x70231099#32, 0x708378FE#32,
    0x70E2CBC5#32, 0x71410804#32, 0x719E2CD1#32, 0x71FA3948#32,
    0x72552C84#32, 0x72AF05A6#32, 0x7307C3CF#32, 0x735F6625#32,
    0x73B5EBD0#32, 0x740B53FA#32, 0x745F9DD0#32, 0x74B2C883#32,
    0x7504D344#32, 0x7555BD4B#32, 0x75A585CE#32, 0x75F42C0A#32 ]

/-- `ROM[192]` to `ROM[223]` (R42). -/
def romWords6 : List RomWord :=
  [ 0x7641AF3C#32, 0x768E0EA5#32, 0x76D94988#32, 0x77235F2C#32,
    0x776C4EDA#32, 0x77B417DF#32, 0x77FAB988#32, 0x78403328#32,
    0x78848413#32, 0x78C7ABA1#32, 0x7909A92C#32, 0x794A7C11#32,
    0x798A23B0#32, 0x79C89F6D#32, 0x7A05EEAC#32, 0x7A4210D8#32,
    0x7A7D055A#32, 0x7AB6CBA3#32, 0x7AEF6323#32, 0x7B26CB4E#32,
    0x7B5D039D#32, 0x7B920B88#32, 0x7BC5E28F#32, 0x7BF8882F#32,
    0x7C29FBED#32, 0x7C5A3D4F#32, 0x7C894BDD#32, 0x7CB72723#32,
    0x7CE3CEB1#32, 0x7D0F4217#32, 0x7D3980EB#32, 0x7D628AC5#32 ]

/-- `ROM[224]` to `ROM[255]` (R42). -/
def romWords7 : List RomWord :=
  [ 0x7D8A5F3F#32, 0x7DB0FDF7#32, 0x7DD6668E#32, 0x7DFA98A7#32,
    0x7E1D93E9#32, 0x7E3F57FE#32, 0x7E5FE492#32, 0x7E7F3956#32,
    0x7E9D55FB#32, 0x7EBA3A38#32, 0x7ED5E5C5#32, 0x7EF0585F#32,
    0x7F0991C3#32, 0x7F2191B3#32, 0x7F3857F5#32, 0x7F4DE450#32,
    0x7F62368E#32, 0x7F754E7F#32, 0x7F872BF2#32, 0x7F97CEBC#32,
    0x7FA736B3#32, 0x7FB563B2#32, 0x7FC25595#32, 0x7FCE0C3D#32,
    0x7FD8878D#32, 0x7FE1C76A#32, 0x7FE9CBBF#32, 0x7FF09477#32,
    0x7FF62181#32, 0x7FFA72D0#32, 0x7FFD8859#32, 0x7FFF6215#32 ]

/-- The table of R42 as a list, index order. `ROM[256]` is the value of the formula (R42, C1). -/
def romList : List RomWord :=
  romWords0 ++ romWords1 ++ romWords2 ++ romWords3 ++ romWords4 ++ romWords5 ++ romWords6 ++ romWords7 ++
    [0x7FFFFFFF#32]

/-- The amplitude table (R40, R42). -/
def amplitudeRom : Memory := ⟨romList.toArray, by decide +kernel⟩

/-- The one form a memory of this block has: its contents are the table's, "never mutated" (R42, R45). -/
abbrev Memory.wf (m : Memory) : Prop := m = amplitudeRom

/-- `ROM[k]` (R44). The index type is the address map 0..256 (R49), so no read is out of range. -/
def Memory.readWord (m : Memory) (k : Fin Config.tableN) : RomWord := m[k]

end Sys2Proof.Machine
end

