-- ==== Sys2Proof/Machine/State.lean ====
section
/-! DEFINITION. The state: the block's own (R21) and, beside it, what the environment drives in the coming cycles (R22,
R70; notes/assumptions/3.md). Plain data. -/

namespace Sys2Proof.Machine

/-- The level of `in_valid`: 0, 1 or unknown (R22, R173). -/
inductive Level where
  | low
  | high
  | unknown
  deriving DecidableEq, Repr

/-- The levels of `in_op` and `in_angle` together: a request word (R60), or some bit of them is unknown (R173). -/
inductive ReqBus where
  | driven (w : Request)
  | unknown
  deriving DecidableEq, Repr

/-- What the reset source and the requester drive. -/
inductive Drive where
  /-- One cycle with these levels of `rst`, `in_valid` and (`in_op`, `in_angle`) (R22). -/
  | cycle (rst : Bool) (inValid : Level) (inReq : ReqBus)
  /-- `rst = 0`, `in_valid = 1` and this request, from this cycle up to and including the cycle whose edge accepts it
  (R70, a SIN or COS statement). -/
  | hold (w : Request)
  deriving DecidableEq, Repr

/-- No request and no reset; nothing is said of `in_op` and `in_angle` (R70: WAIT, and after the last statement). -/
def Drive.idle : Drive := .cycle false .low .unknown

/-- The levels at the input ports in one cycle (R22). `rst` and `out_ready` are 0 or 1 (notes/assumptions/6.md). -/
structure PortIn where
  rst : Bool
  inValid : Level
  inReq : ReqBus
  outReady : Bool
  deriving DecidableEq, Repr

/-- The levels at the output ports in one cycle (R22). `outResult` is `none` while `r_q` has no value (R27). -/
structure PortOut where
  inReady : Bool
  outValid : Bool
  outResult : Option Response
  deriving DecidableEq, Repr

/-- The state in a cycle, before its rising edge. -/
structure State where
  /-- `ROM[0..256]` (R21, R40). -/
  rom : Memory
  /-- `v_q` and `r_q`: `none` is `v_q = 0`, where `r_q` has no value; `some r` is `v_q = 1` and `r_q = r`
  (R21, R27, R34; notes/assumptions/2.md). -/
  pending : Option Response
  /-- What is driven in this cycle (the head) and the coming ones; `Drive.idle` after the list's end. -/
  drives : List Drive
  /-- `out_ready` in this cycle (the head) and the coming ones (R70, READY). -/
  readies : List Bool
  /-- `out_ready` after the end of `readies`: the last character of a READY pattern, which repeats (R70). -/
  readyRest : Bool
  /-- How many free values have been drawn (R173; notes/assumptions/5.md). The model's own field. -/
  draws : Nat
  deriving DecidableEq, Repr

/-- Why the machine stops with a fault: never. "No request raises an exception, fault, trap or error signal" (R140), so the
type is empty: no meaning can raise one. Safe: nothing the hardware does is cut short (notes/assumptions/15.md). -/
inductive Fault where
  deriving DecidableEq, Repr

/-- Why an operation has no meaning in the model. -/
inductive Refusal where
  /-- An operation the model has given no meaning. Raised by no arm of `exec`: both operations have one. Safe. -/
  | notModelled (mnemonic : String)
  deriving DecidableEq, Repr

/-- `v_q` (R21). -/
def State.vq (s : State) : Bool := s.pending.isSome

/-- `r_q`, which "has a value only while `v_q == 1`" (R21, R27). -/
def State.rq (s : State) : Option Response := s.pending

/-- The state after reset: `v_q = 0`, `r_q` without a value, the ROM unchanged (R35, R161). The environment drives nothing
and its consumer is ready, and no free value has been drawn (notes/assumptions/4.md and 5.md, DESIGN CHOICE). -/
def State.reset : State where
  rom := amplitudeRom
  pending := none
  drives := []
  readies := []
  readyRest := true
  draws := 0

end Sys2Proof.Machine
end

