-- ==== Sys2Proof/Machine/Operands.lean ====
section
/-! DEFINITION. Operand forms: the levels at the input ports in a cycle (R22), and the fields of the cyclic-angle word with
the index mirror (R64, R66, R90 to R97). -/

namespace Sys2Proof.Machine

/-- What is driven in this cycle. -/
def State.drive (s : State) : Drive := s.drives.headD Drive.idle

/-- `out_ready` in this cycle (R22, R70). -/
def State.outReady (s : State) : Bool := s.readies.headD s.readyRest

/-- The input ports in this cycle (R22, R70). -/
def State.portIn (s : State) : PortIn :=
  match s.drive with
  | .cycle rst inValid inReq => ⟨rst, inValid, inReq, s.outReady⟩
  | .hold w => ⟨false, .high, .driven w, s.outReady⟩

/-- `idx_raw = cyclic[27:20]` (R90). -/
def idxRaw (c : Cyclic) : TableIndex := c.extractLsb' 20 8

/-- `interp = cyclic[19:4]` (R91). `cyclic[3:0]` is read by no stage (R92). -/
def interp (c : Cyclic) : Fraction := c.extractLsb' 4 16

/-- `idx = is_odd_quadrant ? idx_raw : 255 − idx_raw` (R96). -/
def mirror (odd : Bool) (raw : TableIndex) : TableIndex :=
  if odd then raw else 255#8 - raw

/-- The index `idx` of the first read, in `0..255` (R97, R100). -/
def lowIndex (idx : TableIndex) : Fin Config.tableN := ⟨idx.toNat, Nat.lt_succ_of_lt idx.isLt⟩

/-- The index `idx + 1` of the second read, in `1..256` (R97, R100). -/
def highIndex (idx : TableIndex) : Fin Config.tableN := ⟨idx.toNat + 1, Nat.succ_lt_succ idx.isLt⟩

end Sys2Proof.Machine
end

