-- ==== Sys2Proof/Machine/Flags.lean ====
section
/-! DEFINITION. The one-bit signals. The block has no flags (R29); it has the handshake signals of a cycle (R23, R24) and the
two quadrant signals of an operation (R93, R94), which are wires and are stored nowhere. -/

namespace Sys2Proof.Machine

/-- `rst` in this cycle (R22). -/
def State.rst (s : State) : Bool := s.portIn.rst

/-- `in_ready = !rst && (!v_q || out_ready)` (R23). -/
def State.inReady (s : State) : Bool := !s.rst && (!s.vq || s.outReady)

/-- `out_valid = !rst && v_q` (R23). -/
def State.outValid (s : State) : Bool := !s.rst && s.vq

/-- The output ports in this cycle (R23). -/
def State.portOut (s : State) : PortOut := ⟨s.inReady, s.outValid, s.rq⟩

/-- `dlv = out_valid && out_ready`: the held result is delivered at this edge (R24). -/
def State.dlv (s : State) : Bool := s.outValid && s.outReady

/-- `acc = in_valid && in_ready`: a request is accepted at this edge (R24), for a known level of `in_valid`. -/
def State.acc (s : State) (inValid : Bool) : Bool := inValid && s.inReady

/-- `is_odd_quadrant = (cyclic[28] == 0)` (R93). -/
def isOddQuadrant (c : Cyclic) : Bool := c.getLsbD 28 == false

/-- `is_negative_quadrant = (cyclic[29] == 1)` (R94). -/
def isNegativeQuadrant (c : Cyclic) : Bool := c.getLsbD 29 == true

end Sys2Proof.Machine
end

