-- ==== Sys2Proof/Machine/Ops.lean ====
section
/-! DEFINITION. The shared operations: the stages of the datapath over exact integers (R8, R80 to R114), and the one thing
that changes the block's registers, the rising clock edge (R25). The block takes no exception and returns from none (R140,
R145, R146), so there is no operation for either. -/

namespace Sys2Proof.Machine

/-- The phase adder of COS: `wrap_256(angle + PI_OVER_TWO)`, the carry out of bit 255 discarded (R80, R86, C3). -/
def phaseAdd (angle : Angle) : Angle := angle + BitVec.ofNat 256 Config.piOverTwo

/-- `theta`, the normalizer's input, by the `OP` bit (R80). -/
def theta (op : Bool) (angle : Angle) : Angle := if op then phaseAdd angle else angle

/-- `m = theta mod TWO_PI` (R81). -/
def reduce (phase : Angle) : Nat := phase.toNat % Config.twoPi

/-- `cyclic = (2^30 · m) div TWO_PI`, for `m < TWO_PI` (R82). -/
def rescaleCycle (m : Nat) : Cyclic := BitVec.ofNat 30 (Config.cycleUnits * m / Config.twoPi)

/-- The normalizer: reduce first, then multiply, then divide (R82, C2). -/
def normalizeAngle (phase : Angle) : Cyclic := rescaleCycle (reduce phase)

/-- `idx` of a cyclic angle (R90, R93, R96). -/
def tableIndex (c : Cyclic) : TableIndex := mirror (isOddQuadrant c) (idxRaw c)

/-- `d = x2 − x1` (R101). -/
def difference (x1 x2 : RomWord) : Int := (x2.toNat : Int) - x1.toNat

/-- `delta = (d · interp) >> 16`, the floor (R102). -/
def interpStep (x1 x2 : RomWord) (f : Fraction) : Int := difference x1 x2 * f.toNat / 2 ^ 16

/-- `sine_mag = is_odd_quadrant ? x1 + delta : x2 − delta` (R103). -/
def sineMag (odd : Bool) (x1 x2 : RomWord) (f : Fraction) : Int :=
  if odd then x1.toNat + interpStep x1 x2 f else x2.toNat - interpStep x1 x2 f

/-- The interpolator at a cyclic angle: its two ROM reads and the magnitude (R100 to R103). -/
def magnitude (rom : Memory) (c : Cyclic) : Int :=
  sineMag (isOddQuadrant c) (rom.readWord (lowIndex (tableIndex c))) (rom.readWord (highIndex (tableIndex c)))
    (interp c)

/-- `sine = is_negative_quadrant ? −sine_mag : sine_mag` (R110). -/
def applySign (neg : Bool) (mag : Int) : Int := if neg then -mag else mag

/-- `result = (sine · 10^18) tdiv (2^31 − 1)`, truncated toward zero (R10, R112). -/
def rescale (sine : Int) : Int := (sine * Config.scale).tdiv Config.amp

/-- The stages after the normalizer (R90 to R112). -/
def resultOfCyclic (rom : Memory) (c : Cyclic) : Int :=
  rescale (applySign (isNegativeQuadrant c) (magnitude rom c))

/-- `SINE_CORE(theta)`, the one datapath of both operations (R120, R126). -/
def sineCore (rom : Memory) (phase : Angle) : Int := resultOfCyclic rom (normalizeAngle phase)

/-- The block's function `F(op, angle)` (R123), with the table of R42. -/
def blockF (op : Bool) (angle : Angle) : Int := sineCore amplitudeRom (theta op angle)

/-- `sext_64` (R9): the 64-bit two's complement word of a result (R63, R114). -/
def sext64 (result : Int) : Response := BitVec.ofInt 64 result

/-- What the environment drives from the next cycle on: a held request stays until the edge that accepts it (R70). -/
def nextDrives (accepted : Bool) : List Drive → List Drive
  | [] => []
  | .cycle _ _ _ :: rest => rest
  | .hold w :: rest => if accepted then rest else .hold w :: rest

/-- The environment moves on to the next cycle (R70). -/
def State.advance (s : State) (accepted : Bool) : State :=
  { s with drives := nextDrives accepted s.drives, readies := s.readies.tail }

/-- `v_q` and `r_q` after the edge (R25). `request` is the value to capture when `in_valid` is 1, `none` when it is 0. -/
def State.nextPending (s : State) (request : Option Response) : Option Response :=
  if s.rst then none
  else if s.acc request.isSome then request
  else if s.dlv then none
  else s.pending

/-- One rising edge of `clk` (R25): the registers take their next values and the environment moves on. -/
def State.clockEdge (s : State) (request : Option Response) : State :=
  { s.advance (s.acc request.isSome) with pending := s.nextPending request }

/-- One more free value has been drawn (R173). -/
def State.draw (s : State) : State := { s with draws := s.draws + 1 }

end Sys2Proof.Machine
end

