-- ==== Sys2Proof/Machine/Trig.lean ====
section
/-! DEFINITION. The meanings of SIN and COS: what the block does in a cycle in which the request is presented with
`in_valid = 1`. Where the block is ready the edge accepts it, and the result is held from the next cycle on (R25, R121,
R122, R171). Where it is not ready the request waits, and where `rst` is 1 the reset wins (R25, R144;
notes/assumptions/12.md). -/

namespace Sys2Proof.Machine

/-- `SIN angle`: `result = SINE_CORE(angle)` (R121). -/
def execSin (angle : Angle) (s : State) : Host.Outcome State Fault Refusal :=
  .next (s.clockEdge (some (sext64 (sineCore s.rom angle))))

/-- `COS angle`: `result = SINE_CORE(wrap_256(angle + PI_OVER_TWO))` (R122). -/
def execCos (angle : Angle) (s : State) : Host.Outcome State Fault Refusal :=
  .next (s.clockEdge (some (sext64 (sineCore s.rom (phaseAdd angle)))))

end Sys2Proof.Machine
end

