-- ==== Sys2Proof/Syntax.lean ====
section
/-! DEFINITION. The operations: one constructor for each row of the operation map (R67). -/

namespace Sys2Proof

/-- The two operations of R67, each with its one operand, the unsigned angle of R62. -/
inductive Instr where
  /-- `SIN angle`, `OP = 0` (R121). -/
  | sin (angle : Angle)
  /-- `COS angle`, `OP = 1` (R122). -/
  | cos (angle : Angle)
  deriving DecidableEq, Repr

end Sys2Proof
end

