-- ==== Sys2Proof/Machine/Dispatch.lean ====
section
/-! DEFINITION. One arm for each operation. -/

namespace Sys2Proof.Machine

def exec (i : Instr) (s : State) : Host.Outcome State Fault Refusal :=
  match i with
  | .sin angle => Sys2Proof.Machine.execSin angle s
  | .cos angle => Sys2Proof.Machine.execCos angle s

end Sys2Proof.Machine
end

