-- ==== Sys2Proof/Decode.lean ====
section
/-! DEFINITION. Requests to operations and back (R60 to R62, R67, R68). There is one format and every 257-bit word is
defined, so the only thing a decoder can refuse is a number that is no 257-bit word. -/

namespace Sys2Proof

/-- The `OP` field, bit 256 (R60). -/
def opField (w : Request) : Bool := w.getLsbD 256

/-- The `ANGLE` field, bits 255:0 (R60, R62). -/
def angleField (w : Request) : Angle := w.extractLsb' 0 256

/-- `OP == 0` selects SIN and `OP == 1` selects COS; bits 255:0 are always the operand (R61, R67). -/
def decode (w : Request) : Instr :=
  if opField w then .cos (angleField w) else .sin (angleField w)

/-- `REQ = OP·2^256 + ANGLE` (R60, R70). -/
def encode : Instr → Request
  | .sin a => BitVec.ofNat 257 (0 * 2 ^ 256 + a.toNat)
  | .cos a => BitVec.ofNat 257 (1 * 2 ^ 256 + a.toNat)

/-- What a decoder of numbers can refuse (R60: a request is one 257-bit word). Safe: no block behaviour is lost, since the
port cannot carry such a number. -/
inductive DecodeError where
  /-- The number needs more than 257 bits. Raised by `decodeNumber`. -/
  | widerThanRequest
  deriving DecidableEq, Repr

/-- A number read as a request word, bit `i` of weight `2^i` (R9, R60). -/
def decodeNumber (w : Nat) : Except DecodeError Instr :=
  if w < 2 ^ 257 then .ok (decode (BitVec.ofNat 257 w)) else .error .widerThanRequest

/-- The operation that the decoder reads from a request whose bits are `w`, numbered as the operation table numbers
them. The request is presented in parallel (R60), so there is no byte order and `w` is the word itself; the bits above
the table's `nbits` are zero in `w` already, so `nbits` decides nothing (notes/assumptions/11.md, DESIGN CHOICE, safe). -/
def decodeTableWord (_nbits w : Nat) : Option Instr :=
  (decodeNumber w).toOption

/-- One row of the operation map: a word belongs to it when its bits under `mask` are those of `pattern` (R67). -/
structure OpRow where
  mnemonic : String
  pattern : Request
  mask : Request
  deriving DecidableEq, Repr

/-- `opcode_table.json`, row by row (R67). -/
def opTable : List OpRow :=
  [ ⟨"SIN", 0x00000000000000000000000000000000000000000000000000000000000000000#257,
      0x10000000000000000000000000000000000000000000000000000000000000000#257⟩,
    ⟨"COS", 0x10000000000000000000000000000000000000000000000000000000000000000#257,
      0x10000000000000000000000000000000000000000000000000000000000000000#257⟩ ]

/-- The word belongs to the row. -/
def OpRow.holds (r : OpRow) (w : Request) : Bool := w &&& r.mask == r.pattern

/-- The row of an operation, by its mnemonic (R67). -/
def Instr.mnemonic : Instr → String
  | .sin _ => "SIN"
  | .cos _ => "COS"

end Sys2Proof
end

