-- ==== Sys2Proof/Machine/Fetch.lean ====
section
/-! DEFINITION. What is presented at the request port in this cycle. The block fetches nothing from a memory (R28, R54): its
next operation is the request that the port carries. -/

namespace Sys2Proof.Machine

/-- What a cycle presents once an unknown `in_valid` is settled one way or the other (R173). -/
inductive Fetched where
  /-- `in_valid` is 0. -/
  | nothing
  /-- `in_valid` is 1 and this operation stands on `in_op` and `in_angle`. -/
  | operation (i : Instr)
  /-- `in_valid` is 1 and a bit of `in_op` or `in_angle` is unknown. -/
  | unknownOperation
  deriving DecidableEq, Repr

/-- What `in_op` and `in_angle` present (R61, R62, R173). -/
def fetchBus : ReqBus → Fetched
  | .driven w => .operation (decode w)
  | .unknown => .unknownOperation

/-- What the cycle presents. An unknown `in_valid` is settled by a free value (R173). -/
def State.fetch (s : State) : Fetched × State :=
  match s.portIn.inValid with
  | .low => (.nothing, s)
  | .high => (fetchBus s.portIn.inReq, s)
  | .unknown => (if Config.freeAccept s.draws then fetchBus s.portIn.inReq else .nothing, s.draw)

/-- The edge of a cycle that presents nothing (R25). -/
def State.idleEdge (s : State) : State := s.clockEdge none

/-- The edge of a cycle that presents unknown bits: what it may capture is a free value (R173). -/
def State.unknownEdge (s : State) : State := s.draw.clockEdge (some (Config.freeResponse s.draws))

end Sys2Proof.Machine
end

