-- ==== Sys2Proof/Machine/Step.lean ====
section
/-! DEFINITION. One step: one clock cycle up to and including the rising edge that ends it (R25). -/

namespace Sys2Proof.Machine

/-- One rising edge. A presented operation is run by `exec`; a cycle that presents nothing only delivers, resets or holds.
While the clock is stopped there is no step (R153, I9; notes/assumptions/8.md). -/
def step (s : State) : Host.Outcome State Fault Refusal :=
  match s.fetch with
  | (.nothing, t) => .next t.idleEdge
  | (.operation i, t) => exec i t
  | (.unknownOperation, t) => .next t.unknownEdge

/-- `s` with the request `w` presented before everything `s` still has to present, and the consumer ready in this cycle, so
that this cycle's edge accepts it (R24; notes/assumptions/10.md). The port carries 257 bits, whatever `nbits` is. -/
def State.withFetchWord (s : State) (_nbits w : Nat) : State :=
  { s with drives := .hold (BitVec.ofNat 257 w) :: s.drives, readies := true :: s.readies.tail }

end Sys2Proof.Machine
end

