-- ==== Sys2Proof/Machine/Datapath.lean ====
section
/-! DEFINITION. The datapath built of words of the minimum widths of R170, every operation a machine operation of that width.
The block's meanings are the exact integers of Machine/Ops.lean (R8); this second form says what a circuit does, and the
two are claimed equal (R142, R170; notes/assumptions/18.md). -/

namespace Sys2Proof.Machine.Circuit

/-- `m`, 63 bits unsigned (R81, R170). -/
def reduce (phase : BitVec 256) : BitVec 63 := (phase % BitVec.ofNat 256 Config.twoPi).setWidth 63

/-- `2^30 · m`, 93 bits, "a wiring shift": `{m, 30'b0}` (R83, R170). -/
def product (m : BitVec 63) : BitVec 93 := m ++ 0#30

/-- `cyclic`, 30 bits: the floor division by the constant (R82, R83, R170). -/
def cyclic (phase : BitVec 256) : BitVec 30 :=
  (product (reduce phase) / BitVec.ofNat 93 Config.twoPi).setWidth 30

/-- "`255 − idx_raw` is the bitwise complement of `idx_raw`, so the mirror is eight XOR gates with `cyclic[28]`" (R96). -/
def index (c : BitVec 30) : BitVec 8 := c.extractLsb' 20 8 ^^^ (c.extractLsb' 28 1).signExtend 8

/-- `d`, 24 bits of "an unsigned 32-bit subtraction" (R101, R170). -/
def difference (x1 x2 : BitVec 32) : BitVec 24 := (x2 - x1).setWidth 24

/-- `delta`, 24 bits of a 40-bit product (R102, R170). -/
def delta (d : BitVec 24) (f : BitVec 16) : BitVec 24 := ((d.setWidth 40 * f.setWidth 40) >>> 16).setWidth 24

/-- `sine_mag`, 31 bits unsigned (R13, R103). -/
def sineMag (odd : Bool) (x1 x2 : BitVec 32) (dl : BitVec 24) : BitVec 31 :=
  if odd then x1.setWidth 31 + dl.setWidth 31 else x2.setWidth 31 - dl.setWidth 31

/-- `sine`, 32 bits two's complement (R110, R170). -/
def sine (neg : Bool) (mag : BitVec 31) : BitVec 32 := if neg then -mag.setWidth 32 else mag.setWidth 32

/-- `sine · 10^18`, 92 bits two's complement (R112, R170). -/
def scaled (sn : BitVec 32) : BitVec 92 := sn.signExtend 92 * BitVec.ofNat 92 Config.scale

/-- `result`, 61 bits of the truncating signed division, "carried in 64" (R112, R114, R170). -/
def response (p : BitVec 92) : BitVec 64 :=
  ((p.sdiv (BitVec.ofNat 92 Config.amp)).setWidth 61).signExtend 64

/-- The whole datapath, from `theta` to the word written to `r_q` (R120, R170). -/
def sineCore (rom : Memory) (phase : BitVec 256) : BitVec 64 :=
  let c := cyclic phase
  let odd := !c.getLsbD 28
  let neg := c.getLsbD 29
  let x1 := rom.readWord (lowIndex (index c))
  let x2 := rom.readWord (highIndex (index c))
  response (scaled (sine neg (sineMag odd x1 x2 (delta (difference x1 x2) (interp c)))))

end Sys2Proof.Machine.Circuit
end

