-- ==== Sys2Proof/Machine/RequestProgram.lean ====
section
/-! DEFINITION. The terms of the text that spells request sequences (R70): angle expressions and statements.
Machine/RequestText.lean reads them from characters. -/

namespace Sys2Proof.Machine

/-- An `<angle>`: "a decimal integer, a `0x` hexadecimal integer, or an integer expression over the constants `PI_FP`,
`TWO_PI`, `PI_OVER_TWO` and `2^N`, with `+`, `−`, `·` and parentheses" (R70). -/
inductive AngleExpr where
  | lit (n : Nat)
  | piFp
  | twoPi
  | piOverTwo
  | pow2 (n : Nat)
  | add (a b : AngleExpr)
  | sub (a b : AngleExpr)
  | mul (a b : AngleExpr)
  deriving DecidableEq, Repr

/-- The integer an angle expression denotes (R6, R70). -/
def AngleExpr.eval : AngleExpr → Int
  | .lit n => n
  | .piFp => Config.piFp
  | .twoPi => Config.twoPi
  | .piOverTwo => Config.piOverTwo
  | .pow2 n => 2 ^ n
  | .add a b => a.eval + b.eval
  | .sub a b => a.eval - b.eval
  | .mul a b => a.eval * b.eval

/-- The statements of R70. -/
inductive Stmt where
  /-- `SIN <angle>` -/
  | sin (angle : AngleExpr)
  /-- `COS <angle>` -/
  | cos (angle : AngleExpr)
  /-- `WAIT <n>` -/
  | wait (n : Nat)
  /-- `READY <pattern>`; character `t` is `out_ready` in cycle `t` and the last one repeats. -/
  | ready (pattern : List Bool)
  /-- `RESET` -/
  | reset
  deriving DecidableEq, Repr

/-- A program: its statements in order (R70). -/
abbrev Program := List Stmt

end Sys2Proof.Machine
end

