-- ==== Sys2Proof/WellFormed.lean ====
section
/-! DEFINITION. Which terms are admitted: every operation (R68), and the programs that R70 admits (I10). -/

namespace Sys2Proof

/-- Every operation is well formed: its angle is any `u256`, by its type, and no word is reserved (R62, R68). -/
def Instr.wf : Instr → Bool
  | .sin _ => true
  | .cos _ => true

namespace Machine

/-- "The value must lie in `[0, 2^256)`" (R70). -/
def AngleExpr.inRange (e : AngleExpr) : Bool := 0 ≤ e.eval && e.eval < 2 ^ 256

/-- A statement by itself: its angle is in range, and a READY pattern has a last character to repeat (R70). -/
def Stmt.wf : Stmt → Bool
  | .sin a => a.inRange
  | .cos a => a.inRange
  | .wait _ => true
  | .ready pattern => !pattern.isEmpty
  | .reset => true

/-- The statement is a READY. -/
def Stmt.isReady : Stmt → Bool
  | .ready _ => true
  | _ => false

/-- "A program has at most one `READY`, and it comes first" (R70): no READY stands after the first statement. -/
def Program.readyFirst (p : Program) : Bool := p.tail.all fun t => !t.isReady

/-- The programs that R70 admits. -/
def Program.wf (p : Program) : Bool := p.all Stmt.wf && p.readyFirst

end Machine

end Sys2Proof
end

