-- ==== Sys2Proof/Machine/Loader.lean ====
section
/-! DEFINITION. What the environment drives when it plays a program of R70. A held request, a level for each cycle and the
repeated last level of the pattern are all that the timing rules of R70 need. -/

namespace Sys2Proof.Machine

/-- Why a program is refused before it runs (R70, I10). Safe: the block has no behaviour for such a program. -/
inductive ProgramError where
  /-- "A statement whose angle is outside that range spells no request and is refused by the notation" (R70). -/
  | angleOutOfRange (e : AngleExpr)
  /-- A READY with an empty pattern has no last character to repeat (R70; notes/assumptions/13.md). -/
  | emptyReadyPattern
  /-- A READY stands after the first statement (R70). -/
  | readyNotFirst
  deriving DecidableEq, Repr

/-- An angle expression as the `u256` it spells (R70). -/
def AngleExpr.toAngle (e : AngleExpr) : Except ProgramError Angle :=
  if e.inRange then .ok (BitVec.ofInt 256 e.eval) else .error (.angleOutOfRange e)

/-- The cycles of one statement, READY apart (R70). -/
def Stmt.drives : Stmt → Except ProgramError (List Drive)
  | .sin e => e.toAngle.map fun a => [.hold (encode (.sin a))]
  | .cos e => e.toAngle.map fun a => [.hold (encode (.cos a))]
  | .wait n => .ok (List.replicate n Drive.idle)
  | .reset => .ok [.cycle true .low .unknown]
  | .ready _ => .error .readyNotFirst

/-- The cycles of a program without its READY: "Statements run in order, and each occupies the cycles that follow the last
cycle of the statement before it" (R70). -/
def drivesOf : List Stmt → Except ProgramError (List Drive)
  | [] => .ok []
  | t :: rest => do
    let here ← t.drives
    let after ← drivesOf rest
    pure (here ++ after)

/-- The levels of `out_ready`: the pattern, then its last character for ever; 1 in every cycle without a READY (R70). -/
def readyLevels : Option (List Bool) → Except ProgramError (List Bool × Bool)
  | none => .ok ([], true)
  | some pattern =>
    match pattern.getLast? with
    | some last => .ok (pattern, last)
    | none => .error .emptyReadyPattern

/-- A program's READY pattern, if it begins with one, and the statements after it (R70). -/
def splitReady : Program → Option (List Bool) × List Stmt
  | .ready pattern :: rest => (some pattern, rest)
  | p => (none, p)

/-- `s` with the program about to be played from this cycle on; the block's own state is as it was (R70). -/
def State.load (s : State) (p : Program) : Except ProgramError State := do
  let (pattern, body) := splitReady p
  let (readies, readyRest) ← readyLevels pattern
  let drives ← drivesOf body
  pure { s with drives := drives, readies := readies, readyRest := readyRest }

end Sys2Proof.Machine
end

