-- ==== Sys2Proof/Safety.lean ====
section
/-! DEFINITION. The terms in which claims are stated: what a cycle accepts and delivers, runs of several cycles, and the
invariants. -/

namespace Sys2Proof.Machine

/-- `SINE_CORE(theta)` as R120 writes it, over exact integers, with `ROM[k]` read from the list of R42. -/
def sineCorePseudocode (phase : Nat) : Int :=
  let m := phase % Config.twoPi
  let cyclic := 2 ^ 30 * m / Config.twoPi
  let idxRaw := cyclic / 2 ^ 20 % 2 ^ 8
  let interp := cyclic / 2 ^ 4 % 2 ^ 16
  let odd := cyclic / 2 ^ 28 % 2 = 0
  let neg := cyclic / 2 ^ 29 % 2 = 1
  let idx := if odd then idxRaw else 255 - idxRaw
  let x1 := (romList.getD idx 0).toNat
  let x2 := (romList.getD (idx + 1) 0).toNat
  let delta := (x2 - x1) * interp / 2 ^ 16
  let sineMag := if odd then x1 + delta else x2 - delta
  let sine : Int := if neg then -(sineMag : Int) else sineMag
  (sine * 10 ^ 18).tdiv (2 ^ 31 - 1)

/-- The result of an operation, `F(op, angle)` (R123). -/
def resultOf : Instr → Int
  | .sin a => blockF false a
  | .cos a => blockF true a

/-- The phase an operation puts into the one datapath, its `theta` (R80, R126). -/
def phaseOf : Instr → Angle
  | .sin a => theta false a
  | .cos a => theta true a

/-- The word delivered for an operation, `sext_64(F(op, angle))` (R26, R63). -/
def responseOf (i : Instr) : Response := sext64 (resultOf i)

/-- The operation accepted at the edge that ends this cycle, for known inputs (R24). -/
def State.accepted (s : State) : Option Instr :=
  match s.portIn.inValid, s.portIn.inReq with
  | .high, .driven w => if s.inReady then some (decode w) else none
  | _, _ => none

/-- The result delivered at the edge that ends this cycle (R24). -/
def State.delivered (s : State) : Option Response := if s.dlv then s.rq else none

/-- The state `n` cycles later (a state at which the machine stops would stay; it never stops). -/
def State.after : Nat → State → State
  | 0, s => s
  | n + 1, s =>
    match step s with
    | .next t => State.after n t
    | _ => s

/-- The operations accepted in the next `n` cycles, in order. -/
def State.acceptedIn : Nat → State → List Instr
  | 0, _ => []
  | n + 1, s => s.accepted.toList ++ State.acceptedIn n (State.after 1 s)

/-- The results delivered in the next `n` cycles, in order. -/
def State.deliveredIn : Nat → State → List Response
  | 0, _ => []
  | n + 1, s => s.delivered.toList ++ State.deliveredIn n (State.after 1 s)

/-- The inputs of a cycle carry no unknown level that the block reads: `in_valid` is known, and where it is 1 so are `in_op`
and `in_angle` (R173). -/
def Drive.known : Drive → Bool
  | .cycle _ .low _ => true
  | .cycle _ .high (.driven _) => true
  | .cycle _ .high .unknown => false
  | .cycle _ .unknown _ => false
  | .hold _ => true

/-- All the inputs still to come are known. -/
abbrev State.KnownInputs (s : State) : Prop := ∀ d ∈ s.drives, d.known = true

/-- A response word that is the answer to some request (R26). -/
def Response.IsAnswer (r : Response) : Prop := ∃ i : Instr, r = responseOf i

/-- The invariant of runs with known inputs: the ROM holds the table (R35, R45), a held word is the answer to some request
(R26), and the inputs to come are known. -/
structure State.Inv (s : State) : Prop where
  rom : s.rom.wf
  answer : ∀ r ∈ s.pending, Response.IsAnswer r
  known : s.KnownInputs

end Sys2Proof.Machine
end

