-- ==== Sys2Proof/Certificates/Slice0/Obligations.lean ====
section
/-! DEFINITION. The statements for the provers, in the order of spec/: encodings (30), the interface and the edge (10, 70), the
ROM (20), the stages (40 to 43), the operations (44), and the results over every step and every run.
Each docstring names the rule or the section that the statement formalises. -/

open Sys2Proof Sys2Proof.Machine

/-! ### Encodings -/

/-- R60, R67 and the REQ column of 95_test_vectors.md L2.5: request words written out digit by digit (the first hexadecimal
digit is `OP`, the other 64 are the angle) decode to the operation and the angle they stand for. -/
def Obligations.WrittenRequestsDecode : Prop :=
  decode 0x00000000000000000000000000000000000000000000000000DE0B6B3A7640000#257 = .sin 1000000000000000000#256 ∧
  decode 0x10000000000000000000000000000000000000000000000000DE0B6B3A7640000#257 = .cos 1000000000000000000#256 ∧
  decode 0x000000000000000000000000000000000000000000000000015CC96EFD11924EB#257 = .sin 1570796326794896619#256 ∧
  decode 0x10000000000000000000000000000000000000000000000002B992DDFA23249D6#257 = .cos 3141592653589793238#256 ∧
  decode 0x1FFFFFFFFFFFFFFFFFFFFFFFFFFFFFFFFFFFFFFFFFFFFFFFFFFFFFFFFFFFFFFFF#257 = .cos (BitVec.allOnes 256)

/-- R61, R67: bit 256 alone selects the operation, and bits 255:0 are always the operand. -/
def Obligations.Bit256SelectsOperation : Prop :=
  ∀ w : Request, ∃ a : Angle, (∀ k < 256, a.getLsbD k = w.getLsbD k) ∧
    (w.getLsbD 256 = false → decode w = .sin a) ∧ (w.getLsbD 256 = true → decode w = .cos a)

/-- R60: `REQ = OP·2^256 + ANGLE`, with `OP` in bit 256 and `ANGLE` in bits 255:0. -/
def Obligations.RequestWordLayout : Prop :=
  ∀ a : Angle,
    (encode (.sin a)).toNat = 0 * 2 ^ 256 + a.toNat ∧ opField (encode (.sin a)) = false ∧
    angleField (encode (.sin a)) = a ∧
    (encode (.cos a)).toNat = 1 * 2 ^ 256 + a.toNat ∧ opField (encode (.cos a)) = true ∧
    angleField (encode (.cos a)) = a

/-- From R60, R67 and R68: encoding and decoding are inverse to each other, on every operation with every angle and on
every one of the `2^257` words; the decoder of table words reads the same. -/
def Obligations.DecodeAndEncodeAreInverse : Prop :=
  (∀ i : Instr, decode (encode i) = i) ∧ (∀ w : Request, encode (decode w) = w) ∧
  (∀ (i : Instr) (nbits : Nat), decodeTableWord nbits (encode i).toNat = some i) ∧
  (∀ nbits w : Nat, 2 ^ 257 ≤ w → decodeTableWord nbits w = none)

/-- From R67, R68 and opcode_table.json: a word belongs to a row of the operation table exactly when it decodes to that
row's operation, so every word belongs to exactly one row. -/
def Obligations.EveryWordHasOneTableRow : Prop :=
  (∀ (w : Request) (r : OpRow), r ∈ opTable → (r.holds w = true ↔ r.mnemonic = (decode w).mnemonic)) ∧
  (∀ w : Request, (opTable.filter fun r => r.holds w).length = 1)

/-- From R70 (the form of the loader is the model's, notes/assumptions/13.md): a program is loaded exactly when it is one
that R70 admits, and loading changes nothing of the block itself. -/
def Obligations.LoaderAdmitsWellFormedPrograms : Prop :=
  ∀ (s : State) (p : Program),
    ((∃ t, s.load p = .ok t) ↔ p.wf = true) ∧
    (∀ t, s.load p = .ok t → t.rom = s.rom ∧ t.pending = s.pending ∧ t.draws = s.draws)

/-! ### The interface and the clock edge -/

/-- R23: the output ports as functions of the registers and the inputs of the same cycle; `out_valid` and `out_result` depend
on no input except `rst`. -/
def Obligations.OutputPortEquations : Prop :=
  (∀ s : State, s.portOut.inReady = (!s.rst && (!s.vq || s.outReady)) ∧ s.portOut.outValid = (!s.rst && s.vq) ∧
    s.portOut.outResult = s.rq) ∧
  (∀ s t : State, s.pending = t.pending → s.rst = t.rst →
    s.portOut.outValid = t.portOut.outValid ∧ s.portOut.outResult = t.portOut.outResult)

/-- R25, R28: when the request port presents a word, the step is `exec` of the operation that the word decodes to, at the same
state; no counter moves. The second clause says so for an operation's own encoding. -/
def Obligations.StepRunsPresentedOperation : Prop :=
  (∀ (s : State) (w : Request), s.portIn.inValid = .high → s.portIn.inReq = .driven w →
    step s = exec (decode w) s) ∧
  (∀ (s : State) (i : Instr), s.portIn.inValid = .high → s.portIn.inReq = .driven (encode i) → step s = exec i s)

/-- R140: nothing raises anything. Every operation at every state, and every step, answers a next state; there is no fault
value at all. -/
def Obligations.NothingEverFaults : Prop :=
  (∀ (i : Instr) (s : State), ∃ t, exec i s = .next t) ∧ (∀ s : State, ∃ t, step s = .next t) ∧ (Fault → False)

/-- R25: the registers after the edge of a cycle with known inputs, by the four cases of the rule in its order. -/
def Obligations.EdgeFollowsNextStateRule : Prop :=
  ∀ s : State, s.rom.wf → s.drive.known = true → ∃ t, step s = .next t ∧
    (s.rst = true → t.vq = false) ∧
    (∀ i, s.accepted = some i → t.vq = true ∧ t.rq = some (sext64 (resultOf i))) ∧
    (s.rst = false → s.accepted = none → s.dlv = true → t.vq = false) ∧
    (s.rst = false → s.accepted = none → s.dlv = false → t.vq = s.vq ∧ t.rq = s.rq)

/-- From 10_state.md section 3, the sentence "A held result is therefore never overwritten before it is delivered": an
acceptance while a result is held delivers that result at the same edge, and without `out_ready` the result stays. -/
def Obligations.HeldResultLeavesOnlyByDelivery : Prop :=
  ∀ (s t : State) (r : Response), s.rst = false → s.rq = some r → step s = .next t →
    (t.rq = some r ∧ s.outReady = false) ∨ (s.delivered = some r ∧ s.outReady = true)

/-- R160: the edge of a cycle with `rst = 1`. Nothing is accepted or delivered in it, whatever is presented, and one such
cycle leaves the block as a reset leaves it. -/
def Obligations.ResetEdgeClearsTheBlock : Prop :=
  ∀ s : State, s.rom.wf → s.rst = true →
    s.inReady = false ∧ s.outValid = false ∧ s.accepted = none ∧ s.delivered = none ∧
    (∃ t, step s = .next t ∧ t.pending = State.reset.pending ∧ t.rom = State.reset.rom) ∧
    (∀ i, ∃ t, exec i s = .next t ∧ t.pending = State.reset.pending ∧ t.rom = State.reset.rom)

/-- R161: `v_q = 0`, `r_q` with no value, the ROM as it always is. -/
def Obligations.ResetStateOfTheBlock : Prop :=
  State.reset.vq = false ∧ State.reset.rq = none ∧ State.reset.rom = amplitudeRom

/-- From 70_reset_and_hazards.md section 1, "In the first cycle with `rst == 0` after reset, `in_ready == 1`": a request
presented in that cycle is accepted. -/
def Obligations.FirstCycleAfterResetAccepts : Prop :=
  ∀ (s t : State), s.rst = true → step s = .next t → t.rst = false →
    t.inReady = true ∧
    (∀ i, t.portIn.inValid = .high → t.portIn.inReq = .driven (encode i) → t.accepted = some i)

/-- From R25 and 70_reset_and_hazards.md section 2 (output hold): while a result is held and not taken, a presented operation
waits: the result stays, and a held request is presented again in the next cycle. -/
def Obligations.PresentedOperationWaits : Prop :=
  ∀ (i : Instr) (s : State) (r : Response), s.rst = false → s.rq = some r → s.outReady = false →
    exec i s = .next { s with drives := nextDrives false s.drives, readies := s.readies.tail } ∧
    (s.drive = .hold (encode i) → ∃ t, step s = .next t ∧ t.drive = .hold (encode i) ∧ t.rq = some r)

/-- R172: an accepted operation's result is on the response port after exactly one cycle and stays there through any number of
cycles in which neither `rst` nor `out_ready` is 1. -/
def Obligations.AcceptedResultIsHeldUntilTaken : Prop :=
  ∀ (s : State) (i : Instr) (n : Nat), s.rom.wf → s.accepted = some i →
    (∀ k < n, (s.after (k + 1)).rst = false ∧ (s.after (k + 1)).outReady = false) →
    (s.after (n + 1)).rq = some (responseOf i) ∧
    ((s.after (n + 1)).rst = false → (s.after (n + 1)).outValid = true) ∧
    ((s.after (n + 1)).rst = false → (s.after (n + 1)).outReady = true →
      (s.after (n + 1)).delivered = some (responseOf i))

/-- R171: latency one, one result a cycle while the consumer is ready, and without the consumer one acceptance and then none
while the result is held. -/
def Obligations.LatencyAndThroughput : Prop :=
  (∀ (s : State) (i : Instr), s.rom.wf → s.accepted = some i → ∃ t, step s = .next t ∧
    t.rq = some (responseOf i) ∧ (t.rst = false → t.outValid = true)) ∧
  (∀ s : State, s.rst = false → s.outReady = true → s.inReady = true) ∧
  (∀ s : State, s.rst = false → s.vq = false → s.inReady = true) ∧
  (∀ s : State, s.vq = true → s.outReady = false → s.inReady = false)

/-- From R25 and R70: a SIN or COS statement is presented until the edge that accepts it, and it is accepted no later than the
first cycle in which the consumer is ready. -/
def Obligations.HeldRequestIsAcceptedOnceConsumerReady : Prop :=
  ∀ (n : Nat) (s : State) (w : Request), s.drive = .hold w → (s.after n).outReady = true →
    ∃ k ≤ n, (s.after k).accepted = some (decode w) ∧ ∀ j ≤ k, (s.after j).drive = .hold w

/-- R167: what stands on the request port decides nothing at an edge that accepts nothing: neither when the block is not ready
nor when `in_valid` is 0. -/
def Obligations.UnacceptedInputsAreNotRead : Prop :=
  ∀ (s : State) (rst : Bool) (v v' : Level) (q q' : ReqBus) (rest : List Drive),
    ({ s with drives := .cycle rst v q :: rest }.inReady = false →
      ∃ t t', step { s with drives := .cycle rst v q :: rest } = .next t ∧
        step { s with drives := .cycle rst v' q' :: rest } = .next t' ∧
        t.pending = t'.pending ∧ t.rom = t'.rom ∧ t.drives = t'.drives ∧ t.readies = t'.readies) ∧
    step { s with drives := .cycle rst .low q :: rest } = step { s with drives := .cycle rst .low q' :: rest }

/-- From R173 (the free values are the model's form of "any", notes/assumptions/5.md): unknown request bits at an accepting
edge capture a value that nothing constrains, and an unknown `in_valid` of a ready block is settled by a bit that nothing
constrains, acceptance and non-acceptance each with its own effect. -/
def Obligations.UnknownInputsTakeFreeValues : Prop :=
  ∀ s : State, s.inReady = true → s.rom.wf →
    (s.portIn.inValid = .high → s.portIn.inReq = .unknown →
      ∃ t, step s = .next t ∧ t.rq = some (Config.freeResponse s.draws) ∧ t.draws = s.draws + 1) ∧
    (∀ w, s.portIn.inValid = .unknown → s.portIn.inReq = .driven w →
      ∃ t, step s = .next t ∧ t.draws = s.draws + 1 ∧
        (Config.freeAccept s.draws = true → t.rq = some (responseOf (decode w))) ∧
        (Config.freeAccept s.draws = false → t.rq = if s.dlv then none else s.rq))

/-- The frame of SIN and COS (R21, R25, R45): whatever the cycle, the operation changes `v_q` and `r_q` and nothing else of
the block, every ROM word reads as before, and the environment only moves on by one cycle. -/
def Obligations.OperationFrame : Prop :=
  ∀ (i : Instr) (s t : State), exec i s = .next t →
    t.rom = s.rom ∧ (∀ k, t.rom.readWord k = s.rom.readWord k) ∧ t.draws = s.draws ∧
    t.readyRest = s.readyRest ∧ t.readies = s.readies.tail ∧ t.drives = nextDrives s.inReady s.drives ∧
    (s.inReady = false → s.rst = false → t.pending = s.pending)

/-! ### The ROM -/

/-- R45: "No operation, reset or input changes them", for every step from every state, whatever its inputs. -/
def Obligations.NothingWritesTheRom : Prop :=
  State.reset.rom.wf ∧ ∀ s t : State, step s = .next t → ∀ k, t.rom.readWord k = s.rom.readWord k

/-- R41: every word is the formula's, in both the forms that the rule gives, over the real sine and the real pi. -/
def Obligations.RomIsTheRoundedSine : Prop :=
  ∀ k : Fin Config.tableN,
    ((amplitudeRom.readWord k).toNat : ℤ) = round (Real.sin (k.val * (Real.pi / 2) / 256) * (2 ^ 31 - 1)) ∧
    ((amplitudeRom.readWord k).toNat : ℤ) = round (Real.sin (k.val * Real.pi / 512) * 2147483647)

/-- From R42 and 20_memory.md section 1 (the properties listed there as derived): end points, bit 31, strict growth with its
least and greatest step, the sample at pi/4, and the sum of all entries. -/
def Obligations.RomContentsProperties : Prop :=
  amplitudeRom.readWord 0 = 0#32 ∧ (amplitudeRom.readWord 256).toNat = Config.amp ∧
  (∀ k, (amplitudeRom.readWord k).getLsbD 31 = false) ∧
  (∀ k : Fin 256, 40426 ≤ difference (amplitudeRom.readWord k.castSucc) (amplitudeRom.readWord k.succ) ∧
    difference (amplitudeRom.readWord k.castSucc) (amplitudeRom.readWord k.succ) ≤ 13176712) ∧
  (amplitudeRom.readWord 128).toNat = 1518500249 ∧ (romList.map BitVec.toNat).sum = 351058064691

/-! ### Phase adder and normalizer -/

/-- R80: `theta` is the angle for SIN and the 256-bit wrapped sum for COS. -/
def Obligations.PhaseAdderWraps : Prop :=
  ∀ a : Angle, theta false a = a ∧ (theta true a).toNat = (a.toNat + 1570796326794896619) % 2 ^ 256

/-- R81, R82: reduce modulo `TWO_PI`, then multiply by `2^30`, then floor-divide; `m` is a `u63`. -/
def Obligations.NormalizerReducesThenRescales : Prop :=
  ∀ phase : Angle,
    reduce phase = phase.toNat % 6283185307179586476 ∧ reduce phase < 2 ^ 63 ∧
    (normalizeAngle phase).toNat = 2 ^ 30 * (phase.toNat % 6283185307179586476) / 6283185307179586476

/-- From R81 and R82 (40_normalize.md section 2, "Range and exact points"): `cyclic` does not fall when `m` grows, and the
quarter points are exact. -/
def Obligations.CyclicIsMonotoneWithExactQuarters : Prop :=
  (∀ m m' : Nat, m ≤ m' → m' < Config.twoPi → (rescaleCycle m).toNat ≤ (rescaleCycle m').toNat) ∧
  (∀ j < 4, (rescaleCycle (j * Config.piOverTwo)).toNat = j * 2 ^ 28)

/-- From R82 (40_normalize.md section 2, "Resolution"): the interval of `m` that a cyclic value stands for, and its instance
at 0. `ceil(x / 2^30)` is written `(x + 2^30 − 1) / 2^30`. -/
def Obligations.CyclicCellBounds : Prop :=
  (∀ m < Config.twoPi, ∀ c < 2 ^ 30, (rescaleCycle m).toNat = c ↔
    (c * Config.twoPi + (2 ^ 30 - 1)) / 2 ^ 30 ≤ m ∧
      m ≤ ((c + 1) * Config.twoPi + (2 ^ 30 - 1)) / 2 ^ 30 - 1) ∧
  (∀ m < Config.twoPi, rescaleCycle m = 0#30 ↔ m ≤ 5851672317)

/-- R80 with 40_normalize.md section 3: inside the wrap band the sum of COS is `2^256` less than the exact one, outside it is
the exact one, and the two phases differ by `2^256 mod TWO_PI`. -/
def Obligations.CosWrapBand : Prop :=
  ∀ a : Angle,
    (a.toNat < 2 ^ 256 - Config.piOverTwo → (theta true a).toNat = a.toNat + Config.piOverTwo) ∧
    (2 ^ 256 - Config.piOverTwo ≤ a.toNat →
      (theta true a).toNat = a.toNat + Config.piOverTwo - 2 ^ 256 ∧
      (reduce (theta true a) + 1213325524996631572) % Config.twoPi = (a.toNat + Config.piOverTwo) % Config.twoPi)

/-- From R81 (40_normalize.md section 3): the normalizer has the period `TWO_PI`, for every number of turns that fits. -/
def Obligations.NormalizerIsPeriodic : Prop :=
  ∀ (p q : Angle) (j : Nat), q.toNat = p.toNat + j * Config.twoPi → normalizeAngle q = normalizeAngle p

/-- From R123 (44_operations.md section 4, negative angles): the phase of `2^256 − x` is `(1213325524996631572 − x) mod TWO_PI`,
not that of `−x`. -/
def Obligations.UnsignedWrapIsNotNegation : Prop :=
  ∀ (x : Nat) (a : Angle), 1 ≤ x → x ≤ 2 ^ 256 → a.toNat = 2 ^ 256 - x →
    (reduce a : Int) = (1213325524996631572 - (x : Int)) % Config.twoPi

/-! ### Fields, quadrants, mirror -/

/-- R90, R91, R93, R94: the fields of the cyclic angle as shifts and masks. -/
def Obligations.CyclicFields : Prop :=
  ∀ c : Cyclic,
    (idxRaw c).toNat = c.toNat / 2 ^ 20 % 2 ^ 8 ∧ (interp c).toNat = c.toNat / 2 ^ 4 % 2 ^ 16 ∧
    (isOddQuadrant c = true ↔ c.toNat / 2 ^ 28 % 2 = 0) ∧ (isNegativeQuadrant c = true ↔ c.toNat / 2 ^ 29 % 2 = 1)

/-- From R93 and R94 (41_quadrant.md section 2, the quadrant table): the quadrant bits by the range of `m`. -/
def Obligations.QuadrantsByPhase : Prop :=
  ∀ m < Config.twoPi,
    (m < Config.piOverTwo → isOddQuadrant (rescaleCycle m) = true ∧ isNegativeQuadrant (rescaleCycle m) = false) ∧
    (Config.piOverTwo ≤ m → m < Config.piFp →
      isOddQuadrant (rescaleCycle m) = false ∧ isNegativeQuadrant (rescaleCycle m) = false) ∧
    (Config.piFp ≤ m → m < 3 * Config.piOverTwo →
      isOddQuadrant (rescaleCycle m) = true ∧ isNegativeQuadrant (rescaleCycle m) = true) ∧
    (3 * Config.piOverTwo ≤ m →
      isOddQuadrant (rescaleCycle m) = false ∧ isNegativeQuadrant (rescaleCycle m) = true)

/-- R96: the index is kept in odd quadrants and is 255 less the index in even ones; the reads then use words 0 to 256. -/
def Obligations.MirroredIndex : Prop :=
  ∀ c : Cyclic,
    (tableIndex c).toNat = (if isOddQuadrant c then (idxRaw c).toNat else 255 - (idxRaw c).toNat) ∧
    (lowIndex (tableIndex c)).val = (tableIndex c).toNat ∧
    (highIndex (tableIndex c)).val = (tableIndex c).toNat + 1

/-- From R90 and R91 (41_quadrant.md section 1, discarded bits): cyclic angles that differ only in bits 3:0 give one result. -/
def Obligations.LowCyclicBitsAreDiscarded : Prop :=
  ∀ (rom : Memory) (c c' : Cyclic), c.toNat / 2 ^ 4 = c'.toNat / 2 ^ 4 → resultOfCyclic rom c = resultOfCyclic rom c'

/-! ### Interpolator, sign, rescaler -/

/-- R100, R103 (with R101 and R102 for the step): the magnitude from the two words at `idx` and `idx + 1`, for any memory. -/
def Obligations.MagnitudeFromTwoReads : Prop :=
  ∀ (rom : Memory) (c : Cyclic),
    let x1 : Int := (rom.readWord (lowIndex (tableIndex c))).toNat
    let x2 : Int := (rom.readWord (highIndex (tableIndex c))).toNat
    magnitude rom c =
      if isOddQuadrant c then x1 + (x2 - x1) * (interp c).toNat / 2 ^ 16
      else x2 - (x2 - x1) * (interp c).toNat / 2 ^ 16

/-- From R42 and R102 (42_interpolate.md section 2): the widths of the difference, the product and the step over the table. -/
def Obligations.InterpolationStepBounds : Prop :=
  ∀ (idx : TableIndex) (f : Fraction),
    let x1 := amplitudeRom.readWord (lowIndex idx)
    let x2 := amplitudeRom.readWord (highIndex idx)
    40426 ≤ difference x1 x2 ∧ difference x1 x2 ≤ 13176712 ∧
    0 ≤ difference x1 x2 * f.toNat ∧ difference x1 x2 * f.toNat < 2 ^ 40 ∧
    0 ≤ interpStep x1 x2 f ∧ interpStep x1 x2 f ≤ difference x1 x2 - 1 ∧
    (interpStep x1 x2 f = 0 ↔ difference x1 x2 * f.toNat < 65536)

/-- From R102 and R103 (42_interpolate.md section 2, "Range of `sine_mag`"): odd quadrants never reach full scale and even ones
never reach 0; the bounds 0, 202, 2147483646 and 2147483647. -/
def Obligations.MagnitudeRange : Prop :=
  ∀ c : Cyclic,
    (isOddQuadrant c = true → 0 ≤ magnitude amplitudeRom c ∧ magnitude amplitudeRom c ≤ 2147483646) ∧
    (isOddQuadrant c = false → 202 ≤ magnitude amplitudeRom c ∧ magnitude amplitudeRom c ≤ 2147483647)

/-- From R103 (42_interpolate.md section 2): at a sample point the magnitude is the table's word at the true position, `idx_raw`
in odd quadrants and `256 − idx_raw` in even ones. -/
def Obligations.SamplePointsReadTheTable : Prop :=
  ∀ (rom : Memory) (c : Cyclic) (k : Fin Config.tableN), interp c = 0#16 →
    k.val = (if isOddQuadrant c then (idxRaw c).toNat else 256 - (idxRaw c).toNat) →
    magnitude rom c = (rom.readWord k).toNat

/-- R110: the sign, and that the signed value needs no more than `s32`, `−2^31` never occurring. -/
def Obligations.SignedSine : Prop :=
  ∀ c : Cyclic,
    applySign (isNegativeQuadrant c) (magnitude amplitudeRom c) =
      (if isNegativeQuadrant c then -magnitude amplitudeRom c else magnitude amplitudeRom c) ∧
    -(2 ^ 31 - 1) ≤ applySign (isNegativeQuadrant c) (magnitude amplitudeRom c) ∧
    applySign (isNegativeQuadrant c) (magnitude amplitudeRom c) ≤ 2 ^ 31 - 1

/-- R112: truncation toward zero, as the floor of the absolute values with the sign put back, and the size of the product. -/
def Obligations.RescaleTruncatesTowardZero : Prop :=
  (∀ n : Nat, rescale n = ((n * 10 ^ 18 / (2 ^ 31 - 1) : Nat) : Int) ∧
    rescale (-(n : Int)) = -((n * 10 ^ 18 / (2 ^ 31 - 1) : Nat) : Int)) ∧
  (∀ sine : Int, -(2 ^ 31 - 1) ≤ sine → sine ≤ 2 ^ 31 - 1 →
    (sine * 10 ^ 18).natAbs ≤ 2147483647 * 10 ^ 18 ∧ (sine * 10 ^ 18).natAbs < 2 ^ 91)

/-- From R112 (43_sign_rescale.md section 2, the properties listed there as derived): odd symmetry, growth, the end points, and
the least non-zero magnitude. -/
def Obligations.RescaleProperties : Prop :=
  (∀ n : Int, rescale (-n) = -rescale n) ∧ (∀ n n' : Int, n ≤ n' → rescale n ≤ rescale n') ∧
  rescale (2 ^ 31 - 1) = 10 ^ 18 ∧ rescale 0 = 0 ∧ rescale 1 = 465661287 ∧
  (∀ n : Int, -(2 ^ 31 - 1) ≤ n → n ≤ 2 ^ 31 - 1 → -(10 ^ 18) ≤ rescale n ∧ rescale n ≤ 10 ^ 18)

/-- R63: for a result in `[−10^18, 10^18]`, bits 63:60 of the response all equal its sign, and the value is
`RSP − 2^64·RSP[63]`. -/
def Obligations.ResponseCarriesTheResult : Prop :=
  ∀ result : Int, -(10 ^ 18) ≤ result → result ≤ 10 ^ 18 →
    (∀ k, 60 ≤ k → k ≤ 63 → (sext64 result).getLsbD k = decide (result < 0)) ∧
    result = ((sext64 result).toNat : Int) - 2 ^ 64 * (if (sext64 result).getLsbD 63 then 1 else 0)

/-! ### The operations -/

/-- R120, R123: the datapath computes the pseudocode of `SINE_CORE` over exact integers, for every phase, and the block's function
applies it to the angle for SIN and to the wrapped sum for COS. -/
def Obligations.BlockFunctionIsThePseudocode : Prop :=
  (∀ phase : Angle, sineCore amplitudeRom phase = sineCorePseudocode phase.toNat) ∧
  (∀ a : Angle, blockF false a = sineCorePseudocode a.toNat ∧
    blockF true a = sineCorePseudocode ((a.toNat + Config.piOverTwo) % 2 ^ 256))

/-- SIN completes (R25, R121): wherever the block may accept, which is `rst = 0` and no result held that the consumer leaves,
the next state holds `sext_64(SINE_CORE(angle))` with `v_q = 1`, and is otherwise the old one a cycle on. -/
def Obligations.SinCompletes : Prop :=
  ∀ (a : Angle) (s : State), s.rom.wf → s.rst = false → (s.vq = false ∨ s.outReady = true) →
    exec (.sin a) s = .next { s with
      pending := some (BitVec.ofInt 64 (sineCorePseudocode a.toNat)),
      drives := nextDrives true s.drives, readies := s.readies.tail }

/-- COS completes (R25, R122): as SIN, with `SINE_CORE(wrap_256(angle + PI_OVER_TWO))`. -/
def Obligations.CosCompletes : Prop :=
  ∀ (a : Angle) (s : State), s.rom.wf → s.rst = false → (s.vq = false ∨ s.outReady = true) →
    exec (.cos a) s = .next { s with
      pending := some (BitVec.ofInt 64 (sineCorePseudocode ((a.toNat + Config.piOverTwo) % 2 ^ 256))),
      drives := nextDrives true s.drives, readies := s.readies.tail }

/-- R126: COS agrees with SIN of the wrapped sum bit for bit, at every state, ready or not and under reset too. -/
def Obligations.CosIsShiftedSin : Prop :=
  ∀ (a : Angle) (s : State), exec (.cos a) s = exec (.sin (a + BitVec.ofNat 256 Config.piOverTwo)) s

/-- From R123 (44_operations.md section 4, "Periodicity", with the bound of C6): SIN has the exact period `TWO_PI` below
`2^256 − TWO_PI`. -/
def Obligations.SinIsPeriodic : Prop :=
  ∀ (a : Angle) (s : State), a.toNat < 2 ^ 256 - Config.twoPi →
    exec (.sin (a + BitVec.ofNat 256 Config.twoPi)) s = exec (.sin a) s

/-- From R123 (44_operations.md section 4, "Bounded range"): every result lies in `[−10^18, 10^18]`, and the response word reads
back as the result. -/
def Obligations.ResultsAreBounded : Prop :=
  ∀ i : Instr, -(10 ^ 18) ≤ resultOf i ∧ resultOf i ≤ 10 ^ 18 ∧ (responseOf i).toInt = resultOf i

/-- From R123 (44_operations.md sections 2 to 4): the source's known values, all exact, and corner cases of SIN and COS. -/
def Obligations.KnownValues : Prop :=
  blockF false 0#256 = 0 ∧ blockF false (BitVec.ofNat 256 Config.piOverTwo) = 10 ^ 18 ∧
  blockF false (BitVec.ofNat 256 Config.piFp) = 0 ∧
  blockF false (BitVec.ofNat 256 (3 * Config.piOverTwo)) = -(10 ^ 18) ∧
  blockF true 0#256 = 10 ^ 18 ∧ blockF true (BitVec.ofNat 256 Config.piFp) = -(10 ^ 18) ∧
  blockF true (BitVec.allOnes 256) = 999999999534338712 ∧ blockF false (BitVec.allOnes 256) = 936781388678020513 ∧
  blockF false 1000000000000000000#256 = 841470572092323830 ∧
  blockF true 1000000000000000000#256 = 540302087804443243

/-- From R121 (44_operations.md section 2, corner cases): every angle below one cyclic unit and every multiple of `TWO_PI` has
sine 0. -/
def Obligations.SmallAnglesAndFullTurnsGiveZero : Prop :=
  (∀ a : Angle, a.toNat < 5851672318 → blockF false a = 0) ∧
  (∀ (a : Angle) (j : Nat), a.toNat = j * Config.twoPi → blockF false a = 0)

/-- R124: the captured result depends on the operation and its angle alone: two accepting states that agree on nothing but the
ROM, with any other history, inputs and timing, capture the same word. -/
def Obligations.ResultDependsOnRequestAlone : Prop :=
  ∀ (i : Instr) (s s' : State), s.rom = s'.rom → s.inReady = true → s'.inReady = true →
    ∃ t t', exec i s = .next t ∧ exec i s' = .next t' ∧ t.vq = true ∧ t'.vq = true ∧ t.rq = t'.rq

/-! ### The datapath at its widths, and results over every step and every run -/

/-- From R170 and R142: the datapath built of machine words of the minimum widths, every product, sum and division taken at its
width, writes the word of the exact integers, for every phase. No stage overflows. -/
def Obligations.CircuitWidthsSuffice : Prop :=
  ∀ phase : Angle, Circuit.sineCore amplitudeRom phase = sext64 (sineCore amplitudeRom phase)

/-- The invariant holds at reset (R35, R161). -/
def Obligations.InvariantAtReset : Prop := State.reset.Inv

/-- From R25, R35 and R45: every step keeps the invariant: the ROM holds the table, a held word is the answer to some request, and
the inputs to come are known. -/
def Obligations.StepKeepsInvariant : Prop :=
  ∀ s t : State, s.Inv → step s = .next t → t.Inv

/-- From R25 (10_state.md section 3): over any number of cycles with known inputs and no reset, the results delivered, followed by
the one still held, are the one held at the start followed by the answers to the accepted operations, in acceptance order:
each accepted request has exactly one response and no response comes from nowhere. -/
def Obligations.ResponsesAnswerRequestsInOrder : Prop :=
  ∀ (n : Nat) (s : State), s.rom.wf → s.KnownInputs → (∀ k < n, (s.after k).rst = false) →
    s.rq.toList ++ (s.acceptedIn n).map responseOf = s.deliveredIn n ++ (s.after n).rq.toList
end

