-- ==== Sys2Proof/Laws/State.lean ====
section
/-! SUPPORT. One lemma for each field under each update of the state, and what the accessors read after it. -/

namespace Sys2Proof.Machine

section draw

variable (s : State)

@[simp] theorem State.draw_rom : s.draw.rom = s.rom := rfl
@[simp] theorem State.draw_pending : s.draw.pending = s.pending := rfl
@[simp] theorem State.draw_drives : s.draw.drives = s.drives := rfl
@[simp] theorem State.draw_readies : s.draw.readies = s.readies := rfl
@[simp] theorem State.draw_readyRest : s.draw.readyRest = s.readyRest := rfl
@[simp] theorem State.draw_draws : s.draw.draws = s.draws + 1 := rfl
@[simp] theorem State.draw_vq : s.draw.vq = s.vq := rfl
@[simp] theorem State.draw_rq : s.draw.rq = s.rq := rfl
@[simp] theorem State.draw_drive : s.draw.drive = s.drive := rfl
@[simp] theorem State.draw_outReady : s.draw.outReady = s.outReady := rfl
@[simp] theorem State.draw_portIn : s.draw.portIn = s.portIn := rfl
@[simp] theorem State.draw_rst : s.draw.rst = s.rst := rfl
@[simp] theorem State.draw_inReady : s.draw.inReady = s.inReady := rfl
@[simp] theorem State.draw_outValid : s.draw.outValid = s.outValid := rfl
@[simp] theorem State.draw_dlv : s.draw.dlv = s.dlv := rfl
@[simp] theorem State.draw_acc (v : Bool) : s.draw.acc v = s.acc v := rfl
@[simp] theorem State.draw_nextPending (r : Option Response) : s.draw.nextPending r = s.nextPending r := rfl

end draw

section advance

variable (s : State) (accepted : Bool)

@[simp] theorem State.advance_rom : (s.advance accepted).rom = s.rom := rfl
@[simp] theorem State.advance_pending : (s.advance accepted).pending = s.pending := rfl
@[simp] theorem State.advance_drives : (s.advance accepted).drives = nextDrives accepted s.drives := rfl
@[simp] theorem State.advance_readies : (s.advance accepted).readies = s.readies.tail := rfl
@[simp] theorem State.advance_readyRest : (s.advance accepted).readyRest = s.readyRest := rfl
@[simp] theorem State.advance_draws : (s.advance accepted).draws = s.draws := rfl

end advance

section clockEdge

variable (s : State) (request : Option Response)

@[simp] theorem State.clockEdge_rom : (s.clockEdge request).rom = s.rom := rfl
@[simp] theorem State.clockEdge_pending : (s.clockEdge request).pending = s.nextPending request := rfl
@[simp] theorem State.clockEdge_drives :
    (s.clockEdge request).drives = nextDrives (s.acc request.isSome) s.drives := rfl
@[simp] theorem State.clockEdge_readies : (s.clockEdge request).readies = s.readies.tail := rfl
@[simp] theorem State.clockEdge_readyRest : (s.clockEdge request).readyRest = s.readyRest := rfl
@[simp] theorem State.clockEdge_draws : (s.clockEdge request).draws = s.draws := rfl
@[simp] theorem State.clockEdge_rq : (s.clockEdge request).rq = s.nextPending request := rfl
@[simp] theorem State.clockEdge_vq : (s.clockEdge request).vq = (s.nextPending request).isSome := rfl

end clockEdge

section withFetchWord

variable (s : State) (nbits w : Nat)

@[simp] theorem State.withFetchWord_rom : (s.withFetchWord nbits w).rom = s.rom := rfl
@[simp] theorem State.withFetchWord_pending : (s.withFetchWord nbits w).pending = s.pending := rfl
@[simp] theorem State.withFetchWord_drives :
    (s.withFetchWord nbits w).drives = .hold (BitVec.ofNat 257 w) :: s.drives := rfl
@[simp] theorem State.withFetchWord_readies : (s.withFetchWord nbits w).readies = true :: s.readies.tail := rfl
@[simp] theorem State.withFetchWord_readyRest : (s.withFetchWord nbits w).readyRest = s.readyRest := rfl
@[simp] theorem State.withFetchWord_draws : (s.withFetchWord nbits w).draws = s.draws := rfl
@[simp] theorem State.withFetchWord_outReady : (s.withFetchWord nbits w).outReady = true := rfl
@[simp] theorem State.withFetchWord_portIn :
    (s.withFetchWord nbits w).portIn = ⟨false, .high, .driven (BitVec.ofNat 257 w), true⟩ := rfl
@[simp] theorem State.withFetchWord_rst : (s.withFetchWord nbits w).rst = false := rfl
@[simp] theorem State.withFetchWord_inReady : (s.withFetchWord nbits w).inReady = true := by
  simp [State.inReady]

end withFetchWord

/-- The handshake signals that follow from each other in a cycle (R23, R24). -/
theorem State.inReady_eq_false_iff (s : State) :
    s.inReady = false ↔ s.rst = true ∨ (s.vq = true ∧ s.outReady = false) := by
  cases hr : s.rst <;> cases hv : s.vq <;> cases ho : s.outReady <;> simp [State.inReady, hr, hv, ho]

theorem State.inReady_eq_true_iff (s : State) :
    s.inReady = true ↔ s.rst = false ∧ (s.vq = false ∨ s.outReady = true) := by
  cases hr : s.rst <;> cases hv : s.vq <;> cases ho : s.outReady <;> simp [State.inReady, hr, hv, ho]

theorem State.dlv_eq_true_iff (s : State) :
    s.dlv = true ↔ s.rst = false ∧ s.vq = true ∧ s.outReady = true := by
  cases hr : s.rst <;> cases hv : s.vq <;> cases ho : s.outReady <;>
    simp [State.dlv, State.outValid, hr, hv, ho]

/-- A ready block that holds a result delivers it (R25: "`acc` with `v_q == 1` implies `out_ready == 1` and so `dlv`"). -/
theorem State.dlv_of_inReady_of_vq (s : State) (h : s.inReady = true) (hv : s.vq = true) : s.dlv = true := by
  rw [State.inReady_eq_true_iff] at h
  rw [State.dlv_eq_true_iff]
  exact ⟨h.1, hv, h.2.resolve_left (by simp [hv])⟩

end Sys2Proof.Machine
end

