-- ==== Sys2Proof/Laws/Ops.lean ====
section
/-! SUPPORT. What the shared operations can do, said once: the registers after an edge, the operations, one step. -/

namespace Sys2Proof.Machine

/-- Everything the edge can do to `v_q` and `r_q`: the four cases of R25. -/
theorem State.nextPending_cases (s : State) (request : Option Response) :
    (s.rst = true ∧ s.nextPending request = none) ∨
    (s.rst = false ∧ s.acc request.isSome = true ∧ s.nextPending request = request) ∨
    (s.rst = false ∧ s.acc request.isSome = false ∧ s.dlv = true ∧ s.nextPending request = none) ∨
    (s.rst = false ∧ s.acc request.isSome = false ∧ s.dlv = false ∧ s.nextPending request = s.pending) := by
  cases hr : s.rst <;> cases ha : s.acc request.isSome <;> cases hd : s.dlv <;> simp [State.nextPending, hr, ha, hd]

theorem State.nextPending_of_inReady (s : State) (r : Response) (h : s.inReady = true) :
    s.nextPending (some r) = some r := by
  have hr := ((State.inReady_eq_true_iff s).1 h).1
  simp [State.nextPending, State.acc, hr, h]

theorem State.nextPending_of_rst (s : State) (request : Option Response) (h : s.rst = true) :
    s.nextPending request = none := by
  simp [State.nextPending, h]

/-- A request that is not accepted is as good as none (R167). -/
theorem State.nextPending_of_not_inReady (s : State) (request : Option Response) (h : s.inReady = false) :
    s.nextPending request = s.nextPending none := by
  simp [State.nextPending, State.acc, h]

theorem State.acc_of_not_inReady (s : State) (v : Bool) (h : s.inReady = false) : s.acc v = false := by
  simp [State.acc, h]

/-- Where the consumer takes nothing and nothing resets, a held word stays (R25, R168). -/
theorem State.nextPending_of_held (s : State) (request : Option Response) (r : Response) (hr : s.rst = false)
    (hp : s.pending = some r) (ho : s.outReady = false) : s.nextPending request = some r := by
  have hv : s.vq = true := by simp [State.vq, hp]
  have hn : s.inReady = false := (State.inReady_eq_false_iff s).2 (.inr ⟨hv, ho⟩)
  simp [State.nextPending, State.acc, State.dlv, hr, hn, ho, hp]

/-- Both operations are one edge that captures the result of the one datapath (R120 to R123). -/
theorem exec_eq_clockEdge (i : Instr) (s : State) :
    exec i s = .next (s.clockEdge (some (sext64 (sineCore s.rom (phaseOf i))))) := by
  cases i <;> rfl

theorem responseOf_eq (i : Instr) : responseOf i = sext64 (sineCore amplitudeRom (phaseOf i)) := by
  cases i <;> rfl

/-- The word that a cycle with known inputs offers for capture; `none` when `in_valid` is 0. -/
def State.offered (s : State) : Option Response :=
  match s.portIn.inValid, s.portIn.inReq with
  | .high, .driven w => some (sext64 (sineCore s.rom (phaseOf (decode w))))
  | _, _ => none

/-- One step is one edge, at the state or at the state with one more free value drawn. -/
theorem step_eq_clockEdge (s : State) :
    ∃ u request, (u = s ∨ u = s.draw ∨ u = s.draw.draw) ∧ step s = .next (u.clockEdge request) := by
  unfold step State.fetch
  cases hv : s.portIn.inValid <;> cases hq : s.portIn.inReq <;> try cases hb : Config.freeAccept s.draws
  all_goals
    simp only [fetchBus, exec_eq_clockEdge, State.idleEdge, State.unknownEdge, if_true, Bool.false_eq_true, if_false]
    exact ⟨_, _, by simp, rfl⟩

/-- With known inputs there is no draw, and the edge captures what the cycle offers. -/
theorem step_of_known (s : State) (h : s.drive.known = true) : step s = .next (s.clockEdge s.offered) := by
  unfold step State.fetch State.offered State.portIn
  rcases hd : s.drive with ⟨r, v, q⟩ | w
  · cases v <;> cases q <;> simp [Drive.known, hd] at h ⊢
    · rfl
    · rfl
    · exact exec_eq_clockEdge _ _
  · exact exec_eq_clockEdge _ _

/-- With known inputs, what is offered is accepted exactly when the block is ready. -/
theorem State.acc_offered (s : State) : s.acc s.offered.isSome = s.accepted.isSome := by
  unfold State.acc State.offered State.accepted
  cases s.portIn.inValid <;> cases s.portIn.inReq <;> cases s.inReady <;> rfl

theorem State.offered_of_accepted (s : State) (i : Instr) (h : s.accepted = some i) :
    s.inReady = true ∧ s.offered = some (sext64 (sineCore s.rom (phaseOf i))) := by
  unfold State.accepted at h
  unfold State.offered
  cases hv : s.portIn.inValid <;> cases hq : s.portIn.inReq <;> simp [hv, hq] at h
  obtain ⟨hr, rfl⟩ := h
  exact ⟨hr, rfl⟩

theorem State.drive_known_of_accepted (s : State) (i : Instr) (h : s.accepted = some i) : s.drive.known = true := by
  unfold State.accepted State.portIn at h
  rcases hd : s.drive with ⟨r, v, q⟩ | w
  · cases v <;> cases q <;> simp [hd] at h ⊢
    rfl
  · rfl

/-- An accepted operation: its step, in full. -/
theorem step_of_accepted (s : State) (i : Instr) (h : s.accepted = some i) :
    step s = .next (s.clockEdge (some (sext64 (sineCore s.rom (phaseOf i))))) := by
  rw [step_of_known s (s.drive_known_of_accepted i h), (s.offered_of_accepted i h).2]

theorem Drive.idle_known : Drive.idle.known = true := rfl

theorem State.KnownInputs.drive {s : State} (h : s.KnownInputs) : s.drive.known = true := by
  unfold State.drive
  cases hd : s.drives with
  | nil => rfl
  | cons d rest => exact h d (by simp [hd])

theorem nextDrives_subset (b : Bool) (l : List Drive) : nextDrives b l ⊆ l := by
  match l with
  | [] => simp [nextDrives]
  | .cycle _ _ _ :: rest => exact List.subset_cons_self _ _
  | .hold w :: rest =>
    cases b
    · exact List.Subset.refl _
    · exact List.subset_cons_self _ _

theorem State.KnownInputs.clockEdge {s : State} (h : s.KnownInputs) (request : Option Response) :
    (s.clockEdge request).KnownInputs := fun d hd => h d (nextDrives_subset _ _ hd)

/-- A run of cycles, one step at a time. -/
theorem State.after_zero (s : State) : s.after 0 = s := rfl

theorem State.after_succ_of_step {s t : State} (h : step s = .next t) (n : Nat) : s.after (n + 1) = t.after n := by
  simp [State.after, h]

theorem State.after_one_of_step {s t : State} (h : step s = .next t) : s.after 1 = t := by
  rw [State.after_succ_of_step h]
  rfl

theorem State.after_succ (s : State) (n : Nat) : s.after (n + 1) = (s.after 1).after n := by
  obtain ⟨u, request, -, h⟩ := step_eq_clockEdge s
  rw [State.after_succ_of_step h, State.after_one_of_step h]

theorem State.after_add (s : State) (m n : Nat) : s.after (m + n) = (s.after m).after n := by
  induction m generalizing s with
  | zero => simp [State.after_zero]
  | succ m ih => rw [Nat.succ_add, State.after_succ, ih, ← State.after_succ]

end Sys2Proof.Machine
end

