-- ==== Sys2Proof/Laws/Memory.lean ====
section
/-! SUPPORT. The ROM: reading it, and that every operation on the state keeps its one form. -/

namespace Sys2Proof.Machine

/-- The table's words, by their place in the list of R42. -/
theorem readWord_amplitudeRom (k : Fin Config.tableN) : amplitudeRom.readWord k = romList.getD k.val 0 := by
  have h : k.val < romList.length := lt_of_lt_of_eq k.isLt (by decide +kernel)
  simp [Memory.readWord, amplitudeRom, List.getElem?_eq_getElem h]

theorem State.wf_draw {s : State} (h : s.rom.wf) : s.draw.rom.wf := h

theorem State.wf_advance {s : State} (h : s.rom.wf) (b : Bool) : (s.advance b).rom.wf := h

theorem State.wf_clockEdge {s : State} (h : s.rom.wf) (request : Option Response) : (s.clockEdge request).rom.wf := h

theorem State.wf_withFetchWord {s : State} (h : s.rom.wf) (nbits w : Nat) : (s.withFetchWord nbits w).rom.wf := h

theorem wf_amplitudeRom : amplitudeRom.wf := rfl

end Sys2Proof.Machine
end

