-- ==== Sys2Proof/Laws/Fields.lean ====
section
/-! SUPPORT. Each stage's words as natural numbers: one lemma for each function. -/

namespace Sys2Proof.Machine

theorem idxRaw_toNat (c : Cyclic) : (idxRaw c).toNat = c.toNat / 2 ^ 20 % 2 ^ 8 := by
  simp [idxRaw, Nat.shiftRight_eq_div_pow]

theorem interp_toNat (c : Cyclic) : (interp c).toNat = c.toNat / 2 ^ 4 % 2 ^ 16 := by
  simp [interp, Nat.shiftRight_eq_div_pow]

theorem getLsbD_eq_div_mod (n k : Nat) (c : BitVec n) : c.getLsbD k = decide (c.toNat / 2 ^ k % 2 = 1) := by
  rw [← BitVec.testBit_toNat, Nat.testBit_eq_decide_div_mod_eq]

theorem isOddQuadrant_eq (c : Cyclic) : isOddQuadrant c = decide (c.toNat / 2 ^ 28 % 2 = 0) := by
  rw [isOddQuadrant, getLsbD_eq_div_mod]
  rcases Nat.mod_two_eq_zero_or_one (c.toNat / 2 ^ 28) with h | h <;> rw [h] <;> rfl

theorem isNegativeQuadrant_eq (c : Cyclic) : isNegativeQuadrant c = decide (c.toNat / 2 ^ 29 % 2 = 1) := by
  rw [isNegativeQuadrant, getLsbD_eq_div_mod, beq_true]

theorem mirror_toNat (odd : Bool) (raw : TableIndex) :
    (mirror odd raw).toNat = if odd then raw.toNat else 255 - raw.toNat := by
  cases odd
  · have := raw.isLt
    simp [mirror, BitVec.toNat_sub]
    omega
  · rfl

theorem lowIndex_val (idx : TableIndex) : (lowIndex idx).val = idx.toNat := rfl

theorem highIndex_val (idx : TableIndex) : (highIndex idx).val = idx.toNat + 1 := rfl

theorem twoPi_pos : 0 < Config.twoPi := by norm_num

theorem reduce_lt (phase : Angle) : reduce phase < Config.twoPi := Nat.mod_lt _ twoPi_pos

/-- The rescaled value fits its 30 bits for every reduced phase (R83). -/
theorem rescaleCycle_toNat (m : Nat) (h : m < Config.twoPi) :
    (rescaleCycle m).toNat = Config.cycleUnits * m / Config.twoPi := by
  have hlt : Config.cycleUnits * m / Config.twoPi < 2 ^ 30 := by
    rw [Nat.div_lt_iff_lt_mul twoPi_pos]
    calc Config.cycleUnits * m < Config.cycleUnits * Config.twoPi := Nat.mul_lt_mul_of_pos_left h (by norm_num)
      _ = 2 ^ 30 * Config.twoPi := by norm_num
  rw [rescaleCycle, BitVec.toNat_ofNat, Nat.mod_eq_of_lt hlt]

theorem phaseAdd_toNat (a : Angle) : (phaseAdd a).toNat = (a.toNat + Config.piOverTwo) % 2 ^ 256 := by
  rw [phaseAdd, BitVec.toNat_add, BitVec.toNat_ofNat, Nat.add_mod_mod]

end Sys2Proof.Machine
end

