-- ==== Sys2Proof/Laws/PerInstr.lean ====
section
/-! SUPPORT. What holds of every operation as a term, one lemma for each constructor. -/

namespace Sys2Proof.Laws.Admitted

/-- The operation is well formed and has a row in the operation table (R67, R68). -/
def Statement (i : Instr) : Prop := i.wf = true ∧ i.mnemonic ∈ opTable.map OpRow.mnemonic

theorem sin (angle : Angle) : Statement (.sin angle) := ⟨rfl, by simp [Instr.mnemonic, opTable]⟩

theorem cos (angle : Angle) : Statement (.cos angle) := ⟨rfl, by simp [Instr.mnemonic, opTable]⟩

end Sys2Proof.Laws.Admitted
end

