-- ==== Sys2Proof/Laws/RomFormula.lean ====
section
/-! SUPPORT. The real sine behind the table's formula (R41): the powers of `e^(iπ/512)` followed in integers at scale `2^70`, with
a bound on the distance, so that a claim about the table and the real sine comes down to a check of integers. -/

namespace Sys2Proof.Machine.RomFormula

/-- `cos (π/512)` at scale `2^70`, rounded. -/
def cosQ : ℤ := 1180569396413787839182

/-- `sin (π/512)` at scale `2^70`, rounded. -/
def sinQ : ℤ := 7243974002480366699

/-- One turn by `π/512` of a point at scale `2^70`. -/
def turn (p : ℤ × ℤ) : ℤ × ℤ :=
  ((p.1 * cosQ - p.2 * sinQ) / 2 ^ 70, (p.1 * sinQ + p.2 * cosQ) / 2 ^ 70)

/-- The point `n` turns from `1`. -/
def point : ℕ → ℤ × ℤ
  | 0 => (2 ^ 70, 0)
  | n + 1 => turn (point n)

/-- The complex number of a point. -/
noncomputable def toC (p : ℤ × ℤ) : ℂ := ⟨p.1 / 2 ^ 70, p.2 / 2 ^ 70⟩

/-- `pi / 512` with pi cut off after 20 decimals. -/
noncomputable def angleQ : ℝ := 3.14159265358979323846 / 512

/-- The first nine terms of the exponential series at `i·a`, as real and imaginary part. -/
theorem series_eq (a : ℝ) :
    ∑ m ∈ Finset.range 9, ((a : ℂ) * Complex.I) ^ m / (m.factorial : ℂ) =
      ⟨1 - a ^ 2 / 2 + a ^ 4 / 24 - a ^ 6 / 720 + a ^ 8 / 40320, a - a ^ 3 / 6 + a ^ 5 / 120 - a ^ 7 / 5040⟩ := by
  have e3 : Complex.I ^ 3 = -Complex.I := by rw [pow_succ, Complex.I_sq]; ring
  have e4 : Complex.I ^ 4 = 1 := Complex.I_pow_four
  have e5 : Complex.I ^ 5 = Complex.I := by rw [pow_succ, e4, one_mul]
  have e6 : Complex.I ^ 6 = -1 := by rw [pow_succ, e5, Complex.I_mul_I]
  have e7 : Complex.I ^ 7 = -Complex.I := by rw [pow_succ, e6, neg_one_mul]
  have e8 : Complex.I ^ 8 = 1 := by rw [pow_succ, e7, neg_mul, Complex.I_mul_I, neg_neg]
  rw [Complex.mk_eq_add_mul_I]
  simp only [Finset.sum_range_succ, Finset.sum_range_zero, Nat.factorial]
  push_cast
  simp only [mul_pow, Complex.I_sq, e3, e4, e5, e6, e7, e8]
  ring

theorem abs_add_abs_le {x y : ℝ} (hx : |x| ≤ 2 ^ (-69 : ℤ)) (hy : |y| ≤ 2 ^ (-69 : ℤ)) :
    |x| + |y| ≤ 2 ^ (-68 : ℤ) := by
  have : (2 : ℝ) ^ (-68 : ℤ) = 2 ^ (-69 : ℤ) + 2 ^ (-69 : ℤ) := by norm_num
  linarith

theorem exp_angleQ_near : ‖Complex.exp ((angleQ : ℂ) * Complex.I) - toC (cosQ, sinQ)‖ ≤ 2 ^ (-67 : ℤ) := by
  have hn : ‖(angleQ : ℂ) * Complex.I‖ = angleQ := by
    rw [norm_mul, Complex.norm_I, mul_one, Complex.norm_real, Real.norm_of_nonneg (by norm_num [angleQ])]
  have hseries := Complex.exp_bound (x := (angleQ : ℂ) * Complex.I) (by rw [hn]; norm_num [angleQ]) (n := 9)
    (by norm_num)
  rw [hn] at hseries
  have hpoint : ‖(∑ m ∈ Finset.range 9, ((angleQ : ℂ) * Complex.I) ^ m / (m.factorial : ℂ)) - toC (cosQ, sinQ)‖ ≤
      2 ^ (-68 : ℤ) := by
    refine (Complex.norm_le_abs_re_add_abs_im _).trans ?_
    rw [series_eq]
    simp only [toC, Complex.sub_re, Complex.sub_im, cosQ, sinQ, angleQ]
    apply abs_add_abs_le <;> rw [abs_le] <;> constructor <;> norm_num
  calc _ ≤ _ + _ := norm_sub_le_norm_sub_add_norm_sub _
          (∑ m ∈ Finset.range 9, ((angleQ : ℂ) * Complex.I) ^ m / (m.factorial : ℂ)) _
    _ ≤ angleQ ^ 9 * ((9 : ℕ).succ * ((Nat.factorial 9 : ℝ) * (9 : ℕ))⁻¹) + 2 ^ (-68 : ℤ) :=
          add_le_add hseries hpoint
    _ ≤ _ := by norm_num [angleQ, Nat.factorial]

theorem norm_exp_sub_exp_le (x y : ℝ) :
    ‖Complex.exp (x * Complex.I) - Complex.exp (y * Complex.I)‖ ≤ |x - y| := by
  have h : Complex.exp (x * Complex.I) - Complex.exp (y * Complex.I) =
      Complex.exp (y * Complex.I) * (Complex.exp (((x - y : ℝ) : ℂ) * Complex.I) - 1) := by
    rw [mul_sub, ← Complex.exp_add]
    push_cast
    ring_nf
  have hle := Real.norm_exp_I_mul_ofReal_sub_one_le (x := x - y)
  rw [mul_comm Complex.I] at hle
  rw [h, norm_mul, Complex.norm_exp_ofReal_mul_I, one_mul]
  simpa using hle

/-- `e^(iπ/512)`. -/
noncomputable def unit : ℂ := Complex.exp (((Real.pi / 512 : ℝ) : ℂ) * Complex.I)

theorem norm_unit : ‖unit‖ = 1 := Complex.norm_exp_ofReal_mul_I _

theorem unit_near : ‖unit - toC (cosQ, sinQ)‖ ≤ 2 ^ (-66 : ℤ) := by
  have hpi : |Real.pi / 512 - angleQ| ≤ 2 ^ (-67 : ℤ) := by
    have := Real.pi_gt_d20
    have := Real.pi_lt_d20
    rw [abs_le, angleQ]
    constructor <;> norm_num at * <;> linarith
  calc _ ≤ _ + _ := norm_sub_le_norm_sub_add_norm_sub _ (Complex.exp ((angleQ : ℂ) * Complex.I)) _
    _ ≤ 2 ^ (-67 : ℤ) + 2 ^ (-67 : ℤ) := add_le_add ((norm_exp_sub_exp_le _ _).trans hpi) exp_angleQ_near
    _ = _ := by norm_num

theorem abs_ediv_sub_le (n : ℤ) : |((n / 2 ^ 70 : ℤ) : ℝ) - n / 2 ^ 70| ≤ 1 := by
  have hsum : ((n % 2 ^ 70 : ℤ) : ℝ) + 2 ^ 70 * ((n / 2 ^ 70 : ℤ) : ℝ) = n := by
    have h := Int.emod_add_mul_ediv n (2 ^ 70)
    exact_mod_cast h
  have hlow : (0 : ℝ) ≤ ((n % 2 ^ 70 : ℤ) : ℝ) := by
    exact_mod_cast Int.emod_nonneg n (show (2 : ℤ) ^ 70 ≠ 0 by norm_num)
  have hhigh : ((n % 2 ^ 70 : ℤ) : ℝ) ≤ 2 ^ 70 := by
    exact_mod_cast (Int.emod_lt_of_pos n (show (0 : ℤ) < 2 ^ 70 by norm_num)).le
  have hfrac : ((n % 2 ^ 70 : ℤ) : ℝ) / 2 ^ 70 ≤ 1 := by rwa [div_le_one (by norm_num)]
  have hpos : 0 ≤ ((n % 2 ^ 70 : ℤ) : ℝ) / 2 ^ 70 := by positivity
  rw [← hsum, add_div, mul_div_cancel_left₀ _ (by norm_num), abs_le]
  constructor <;> linarith

theorem turn_near (p : ℤ × ℤ) : ‖toC (cosQ, sinQ) * toC p - toC (turn p)‖ ≤ 2 ^ (-69 : ℤ) := by
  have hre : (toC (cosQ, sinQ) * toC p - toC (turn p)).re =
      -((((p.1 * cosQ - p.2 * sinQ) / 2 ^ 70 : ℤ) : ℝ) - (p.1 * cosQ - p.2 * sinQ : ℤ) / 2 ^ 70) / 2 ^ 70 := by
    simp only [toC, turn, Complex.sub_re, Complex.mul_re]
    push_cast
    ring
  have him : (toC (cosQ, sinQ) * toC p - toC (turn p)).im =
      -((((p.1 * sinQ + p.2 * cosQ) / 2 ^ 70 : ℤ) : ℝ) - (p.1 * sinQ + p.2 * cosQ : ℤ) / 2 ^ 70) / 2 ^ 70 := by
    simp only [toC, turn, Complex.sub_im, Complex.mul_im]
    push_cast
    ring
  have h70 : |(2 : ℝ) ^ 70| = 2 ^ 70 := by norm_num
  have h69 : (2 : ℝ) ^ (-69 : ℤ) * 2 ^ 70 = 2 := by norm_num
  refine (Complex.norm_le_abs_re_add_abs_im _).trans ?_
  rw [hre, him, abs_div, abs_div, abs_neg, abs_neg, h70, ← add_div, div_le_iff₀ (by norm_num), h69]
  linarith [abs_ediv_sub_le (p.1 * cosQ - p.2 * sinQ), abs_ediv_sub_le (p.1 * sinQ + p.2 * cosQ)]

theorem mul_bound {n : ℕ} (hn : n ≤ 256) : (n : ℝ) * 2 ^ (-64 : ℤ) ≤ 2 ^ (-56 : ℤ) := by
  have : (n : ℝ) ≤ 256 := by exact_mod_cast hn
  calc (n : ℝ) * 2 ^ (-64 : ℤ) ≤ 256 * 2 ^ (-64 : ℤ) := mul_le_mul_of_nonneg_right this (by positivity)
    _ = _ := by norm_num

/-- The integer point stays within `n · 2^-64` of the true one: a turn keeps the error it finds and adds a bounded one. -/
theorem point_near (n : ℕ) (hn : n ≤ 256) : ‖unit ^ n - toC (point n)‖ ≤ n * 2 ^ (-64 : ℤ) := by
  induction n with
  | zero =>
    simp [point, toC, Complex.ext_iff]
    norm_num
  | succ n ih =>
    have h0 := ih (by omega)
    have hz : ‖toC (point n)‖ ≤ 2 := by
      have h := norm_sub_le (unit ^ n) (unit ^ n - toC (point n))
      rw [sub_sub_cancel, norm_pow, norm_unit, one_pow] at h
      have hb := h0.trans (mul_bound (n := n) (by omega))
      norm_num at hb
      linarith
    have e : unit ^ (n + 1) - toC (point (n + 1)) =
        unit * (unit ^ n - toC (point n)) + (unit - toC (cosQ, sinQ)) * toC (point n) +
          (toC (cosQ, sinQ) * toC (point n) - toC (turn (point n))) := by
      rw [show point (n + 1) = turn (point n) from rfl]
      ring
    rw [e]
    calc _ ≤ ‖unit * (unit ^ n - toC (point n))‖ + ‖(unit - toC (cosQ, sinQ)) * toC (point n)‖ +
            ‖toC (cosQ, sinQ) * toC (point n) - toC (turn (point n))‖ := norm_add₃_le
      _ ≤ n * 2 ^ (-64 : ℤ) + 2 ^ (-66 : ℤ) * 2 + 2 ^ (-69 : ℤ) := by
        rw [norm_mul, norm_mul, norm_unit, one_mul]
        gcongr
        · exact unit_near
        · exact turn_near _
      _ ≤ _ := by
        push_cast
        norm_num
        linarith

theorem sin_near (n : ℕ) (hn : n ≤ 256) :
    |Real.sin (n * (Real.pi / 512)) - (point n).2 / 2 ^ 70| ≤ 2 ^ (-56 : ℤ) := by
  have h := (Complex.abs_im_le_norm _).trans ((point_near n hn).trans (mul_bound hn))
  have hw : unit ^ n = Complex.exp (((n * (Real.pi / 512) : ℝ) : ℂ) * Complex.I) := by
    rw [unit, ← Complex.exp_nat_mul]
    push_cast
    ring_nf
  rwa [hw, Complex.sub_im, Complex.exp_ofReal_mul_I_im] at h

/-- Each word of a list is nearer than half a unit, with room to spare, to its point's sine at full scale. -/
def near : ℤ × ℤ → List RomWord → Bool
  | _, [] => true
  | p, r :: rest => decide (2 * |p.2 * 2147483647 - r.toNat * 2 ^ 70| < 2 ^ 70 - 2 ^ 60) && near (turn p) rest

theorem near_romList : near (point 0) romList = true := by decide +kernel

theorem near_getD (l : List RomWord) (j : ℕ) (h : near (point j) l = true) (k : ℕ) (hk : k < l.length) :
    2 * |(point (j + k)).2 * 2147483647 - (l.getD k 0).toNat * 2 ^ 70| < 2 ^ 70 - 2 ^ 60 := by
  induction l generalizing j k with
  | nil => simp at hk
  | cons r rest ih =>
    simp only [near, Bool.and_eq_true, decide_eq_true_eq] at h
    cases k with
    | zero => exact h.1
    | succ k =>
      have h2 := ih (j + 1) h.2 k (by simpa using hk)
      rw [show j + 1 + k = j + (k + 1) by omega] at h2
      simpa using h2

/-- Every word of the table is nearer than one half to the real sine at full scale. -/
theorem abs_sine_sub_word_lt (k : Fin Config.tableN) :
    |Real.sin (k.val * (Real.pi / 512)) * 2147483647 - ((amplitudeRom.readWord k).toNat : ℝ)| < 1 / 2 := by
  have h1 := abs_le.1 (sin_near k.val (Nat.lt_succ_iff.1 k.isLt))
  have h2 := near_getD romList 0 near_romList k.val (lt_of_lt_of_eq k.isLt (by decide +kernel))
  rw [Nat.zero_add, ← readWord_amplitudeRom] at h2
  generalize (amplitudeRom.readWord k).toNat = r at *
  generalize (point k.val).2 = y at *
  have h3 : 2 * |(y : ℝ) * 2147483647 - r * 2 ^ 70| < 2 ^ 70 - 2 ^ 60 := by exact_mod_cast h2
  have h4 := abs_lt.1 ((lt_div_iff₀' (by norm_num)).2 h3)
  rw [abs_lt]
  norm_num at h1 h4 ⊢
  constructor <;> linarith

end Sys2Proof.Machine.RomFormula
end

