-- ==== Sys2Proof/Machine/RequestText.lean ====
section
/-! DEFINITION. The characters of the text that spells request sequences (R70), read into the terms of
Machine/RequestProgram.lean. What R70 leaves open of the text (blanks, empty lines, binding of the signs, a leading
`−`, the form of `n` and `N`) is chosen in notes/assumptions/13.md (DESIGN CHOICE, safe: a text only says which inputs the
environment drives). -/

namespace Sys2Proof.Machine

/-- A piece of a line: a word of letters, digits and underscores, or one of the signs of R70's expressions. -/
inductive Token where
  | word (w : List Char)
  | plus
  | minus
  | times
  | caret
  | lparen
  | rparen
  deriving DecidableEq, Repr

/-- The signs of R70: `+`, `−`, `·`, the `^` of `2^N`, and parentheses. -/
def signOf : Char → Option Token
  | '+' => some .plus
  | '−' => some .minus
  | '·' => some .times
  | '^' => some .caret
  | '(' => some .lparen
  | ')' => some .rparen
  | _ => none

/-- Puts a word that has ended in front, if there is one; its letters were collected last first. -/
def putWord (letters : List Char) (rest : List Token) : List Token :=
  if letters.isEmpty then rest else .word letters.reverse :: rest

/-- The pieces of a line, `none` where it has a character that R70's notation does not use. -/
def tokens : (letters line : List Char) → Option (List Token)
  | letters, [] => some (putWord letters [])
  | letters, c :: rest =>
    if c.isAlphanum || c = '_' then tokens (c :: letters) rest
    else if c = ' ' || c = '\t' || c = '\r' then (tokens [] rest).map (putWord letters)
    else match signOf c with
      | some sign => (tokens [] rest).map fun ts => putWord letters (sign :: ts)
      | none => none

/-- The value of a digit, in either case of a hexadecimal letter. -/
def digitOf (c : Char) : Option Nat :=
  if c.isDigit then some (c.toNat - '0'.toNat)
  else if 'a' ≤ c ∧ c ≤ 'f' then some (c.toNat - 'a'.toNat + 10)
  else if 'A' ≤ c ∧ c ≤ 'F' then some (c.toNat - 'A'.toNat + 10)
  else none

/-- A numeral in a base, after the value of the digits already read. -/
def numeralFrom (base : Nat) : (soFar : Nat) → List Char → Option Nat
  | soFar, [] => some soFar
  | soFar, c :: rest =>
    match digitOf c with
    | some d => if d < base then numeralFrom base (soFar * base + d) rest else none
    | none => none

/-- "a decimal integer" (R70); leading zeros mean nothing (notes/assumptions/13.md, DESIGN CHOICE, safe). -/
def decimal : List Char → Option Nat
  | [] => none
  | cs => numeralFrom 10 0 cs

/-- The digits of a hexadecimal constant without the `_` that may group them: "Hexadecimal constants are written `0x…` and may
be grouped with `_`" (R9). R9 does not say where a `_` may stand: here it is one `_` between two digits, and groups have any
length (notes/assumptions/13.md, DESIGN CHOICE, safe). -/
def ungrouped : List Char → Option (List Char)
  | [] => none
  | [c] => if c = '_' then none else some [c]
  | c :: '_' :: rest => if c = '_' then none else (ungrouped rest).map (c :: ·)
  | c :: rest => if c = '_' then none else (ungrouped rest).map (c :: ·)

/-- "a decimal integer, a `0x` hexadecimal integer" (R70), the second grouped with `_` or not (R9). The prefix has a small `x`,
the digits either case (notes/assumptions/13.md, DESIGN CHOICE, safe). -/
def integer : List Char → Option Nat
  | '0' :: 'x' :: cs => (ungrouped cs).bind (numeralFrom 16 0)
  | cs => decimal cs

/-- An operand of one word: an integer or a named constant of R70. -/
def wordOperand (w : List Char) : Option AngleExpr :=
  if w = "PI_FP".toList then some .piFp
  else if w = "TWO_PI".toList then some .twoPi
  else if w = "PI_OVER_TWO".toList then some .piOverTwo
  else (integer w).map .lit

/-- The operand `2^N` of R70, and `10^N`, which the programs of 95_test_vectors.md write (notes/assumptions/13.md, DEDUCED).
R70 does not say what `N` may be: here it and the base are plain decimal numerals, no hexadecimal and no expression
(notes/assumptions/13.md, DESIGN CHOICE, safe). -/
def powerOperand (base exponent : List Char) : Option AngleExpr :=
  match decimal base, decimal exponent with
  | some 2, some n => some (.pow2 n)
  | some 10, some n => some (.lit (10 ^ n))
  | _, _ => none

/-- What stands open to the left of an operand inside one pair of parentheses: a sum and whether the operand is taken from
it, and a product inside that. -/
structure OpenTerms where
  sum : Option (AngleExpr × Bool)
  product : Option AngleExpr
  deriving DecidableEq, Repr

/-- Nothing is open. -/
def OpenTerms.none : OpenTerms := ⟨Option.none, Option.none⟩

/-- The product that ends with the operand `e`. -/
def OpenTerms.inProduct (o : OpenTerms) (e : AngleExpr) : AngleExpr :=
  match o.product with
  | some p => .mul p e
  | Option.none => e

/-- The sum that ends with the product `e`. -/
def OpenTerms.inSum (o : OpenTerms) (e : AngleExpr) : AngleExpr :=
  match o.sum with
  | some (a, true) => .sub a e
  | some (a, false) => .add a e
  | Option.none => e

/-- Reads an angle expression: `·` binds closer than `+` and `−`, and each groups from the left. R70 does not say whether a sign
may lead an expression: here each sign stands between two operands, so `−1 + 2` is no expression, at the start or after a
parenthesis (both notes/assumptions/13.md, DESIGN CHOICE, safe). `outer` holds the parentheses that are open, `last` the product
read so far where an operand has just ended. -/
def readExpr : (outer : List OpenTerms) → (here : OpenTerms) → (last : Option AngleExpr) → List Token → Option AngleExpr
  | outer, here, none, .lparen :: rest => readExpr (here :: outer) .none none rest
  | outer, here, none, .word base :: .caret :: .word exponent :: rest =>
    match powerOperand base exponent with
    | some e => readExpr outer here (some (here.inProduct e)) rest
    | none => none
  | outer, here, none, .word w :: rest =>
    match wordOperand w with
    | some e => readExpr outer here (some (here.inProduct e)) rest
    | none => none
  | outer, here, some e, .times :: rest => readExpr outer ⟨here.sum, some e⟩ none rest
  | outer, here, some e, .plus :: rest => readExpr outer ⟨some (here.inSum e, false), none⟩ none rest
  | outer, here, some e, .minus :: rest => readExpr outer ⟨some (here.inSum e, true), none⟩ none rest
  | up :: outer, here, some e, .rparen :: rest => readExpr outer up (some (up.inProduct (here.inSum e))) rest
  | [], here, some e, [] => some (here.inSum e)
  | _, _, _, _ => none

/-- The angle expression that a list of pieces spells (R70). -/
def angleExprOf (ts : List Token) : Option AngleExpr := readExpr [] .none none ts

/-- A pattern: "a string of `0`s and `1`s" (R70). -/
def patternOf : List Char → Option (List Bool)
  | [] => some []
  | '0' :: rest => (patternOf rest).map (false :: ·)
  | '1' :: rest => (patternOf rest).map (true :: ·)
  | _ => none

/-- The statement that a line's pieces spell (R70). R70 does not say what the `<n>` of WAIT may be: here it is a plain decimal
numeral, no hexadecimal and no expression (notes/assumptions/13.md, DESIGN CHOICE, safe). -/
def statementOf : List Token → Option Stmt
  | [] => none
  | .word name :: rest =>
    if name = "SIN".toList then (angleExprOf rest).map .sin
    else if name = "COS".toList then (angleExprOf rest).map .cos
    else match rest with
      | [] => if name = "RESET".toList then some .reset else none
      | [.word w] =>
        if name = "WAIT".toList then (decimal w).map .wait
        else if name = "READY".toList then (patternOf w).map .ready
        else none
      | _ => none
  | _ => none

/-- The lines of a text, without their ends. -/
def linesOf : List Char → List (List Char)
  | [] => [[]]
  | c :: rest =>
    match linesOf rest with
    | line :: more => if c = '\n' then [] :: line :: more else (c :: line) :: more
    | [] => [[c]]

/-- Why a text is refused. Safe: it spells no program, and the block has no behaviour for it. -/
inductive TextError where
  /-- The line is no statement of R70. -/
  | notAStatement (line : List Char)
  /-- The text spells a program that R70 refuses. -/
  | refused (e : ProgramError)
  deriving DecidableEq, Repr

/-- The statement of a line; a blank line has none. -/
def readLine (line : List Char) : Except TextError (List Stmt) :=
  match tokens [] line with
  | some [] => .ok []
  | some ts =>
    match statementOf ts with
    | some t => .ok [t]
    | none => .error (.notAStatement line)
  | none => .error (.notAStatement line)

/-- The statements of lines, in order. -/
def readLines : List (List Char) → Except TextError Program
  | [] => .ok []
  | line :: rest => do
    let here ← readLine line
    let after ← readLines rest
    pure (here ++ after)

/-- The program that a text spells: "One statement per request" (R70), one on a line. -/
def readProgram (text : String) : Except TextError Program := readLines (linesOf text.toList)

/-- `s` with the program that the text spells about to be played from this cycle on. -/
def State.loadText (s : State) (text : String) : Except TextError State := do
  let p ← readProgram text
  match s.load p with
  | .ok t => .ok t
  | .error e => .error (.refused e)

end Sys2Proof.Machine
end

