-- ==== Sys2Proof/Tests/Slice0.lean ====
section
/-! SUPPORT. Tests and witnesses. Expected values come from the spec's vectors (95_test_vectors.md) and worked examples; a
witness shows a concrete state and operands that meet all the hypotheses of a statement. -/

namespace Sys2Proof.Machine.Tests

-- One test at a time: elaborated side by side, the tests' threads together ask for more memory than a check gives.
set_option Elab.async false

/-- A state with the table's ROM: what is held, what is driven, and `out_ready` in this cycle and after it. -/
def at_ (pending : Option Response) (drives : List Drive) (ready : Bool) : State :=
  ⟨amplitudeRom, pending, drives, [ready], ready, 0⟩

/-- `r_q` in the state that an outcome answers. -/
def rqOf : Host.Outcome State Fault Refusal → Option Response
  | .next t => t.rq
  | _ => none

/-- What is still driven in the state that an outcome answers. -/
def drivesOf : Host.Outcome State Fault Refusal → List Drive
  | .next t => t.drives
  | _ => []

/-! ### Which terms are admitted (R70, I10) -/

/-- `2^256` is out of range. -/
theorem test_angle_too_large_refused : AngleExpr.inRange (.pow2 256) = false := by decide +kernel

theorem test_negative_angle_refused : AngleExpr.inRange (.sub (.lit 0) (.lit 1)) = false := by decide +kernel

theorem test_largest_angle_admitted : AngleExpr.inRange (.sub (.pow2 256) (.lit 1)) = true := by decide +kernel

theorem test_sin_out_of_range_refused : Stmt.wf (.sin (.pow2 256)) = false := by decide +kernel

theorem test_cos_out_of_range_refused : Stmt.wf (.cos (.sub (.lit 0) .piFp)) = false := by decide +kernel

theorem test_empty_ready_refused : Stmt.wf (.ready []) = false := by decide

theorem test_late_ready_refused : Program.wf [.reset, .ready [true]] = false := by decide +kernel

theorem test_second_ready_refused : Program.wf [.ready [true], .ready [false], .reset] = false := by decide +kernel

/-- Program P2 of 95_test_vectors.md. -/
theorem test_program_p2_admitted :
    Program.wf [.ready [false, false, false, false, true], .reset, .sin .piOverTwo, .cos (.lit (10 ^ 18))] = true := by
  decide +kernel

/-- The text of program P2 of 95_test_vectors.md, with a WAIT after it. -/
theorem test_program_p2_text_reads :
    readProgram "READY 00001\nRESET\n\nSIN PI_OVER_TWO\nCOS 10^18\nWAIT 3" =
      .ok [.ready [false, false, false, false, true], .reset, .sin .piOverTwo, .cos (.lit (10 ^ 18)), .wait 3] := by
  decide +kernel

theorem test_angle_text_reads :
    readProgram "SIN 2^256 − (3·PI_FP + 0xfF)·2 − 1" =
      .ok [.sin (.sub (.sub (.pow2 256) (.mul (.add (.mul (.lit 3) .piFp) (.lit 255)) (.lit 2))) (.lit 1))] := by
  decide +kernel

/-- R9's grouping of hexadecimal digits; a `_` that parts no two digits is refused (notes/assumptions/13.md). -/
theorem test_grouped_hexadecimal_reads :
    readProgram "SIN 0xFFFF_fff0" = .ok [.sin (.lit 4294967280)] ∧ integer "0x_1".toList = none ∧
      integer "0x1_".toList = none ∧ integer "0x1__2".toList = none ∧ integer "0x".toList = none := by decide +kernel

/-- The model's choice for a leading sign (notes/assumptions/13.md). -/
theorem test_leading_sign_text_refused :
    readProgram "SIN −1 + 2" = .error (.notAStatement "SIN −1 + 2".toList) := by decide +kernel

theorem test_pseudo_instruction_text_refused :
    readProgram "TAN 0" = .error (.notAStatement "TAN 0".toList) := by decide +kernel

/-- P2's encodings and its READY pattern, as 95_test_vectors.md lists them. -/
theorem test_program_p2_loads :
    (State.reset.load [.ready [false, false, false, false, true], .reset, .sin .piOverTwo, .cos (.lit (10 ^ 18))]).map
        (fun s => (s.drives, s.readies, s.readyRest)) =
      .ok ([.cycle true .low .unknown,
        .hold 0x000000000000000000000000000000000000000000000000015CC96EFD11924EB#257,
        .hold 0x10000000000000000000000000000000000000000000000000DE0B6B3A7640000#257],
        [false, false, false, false, true], true) := by decide +kernel

/-! ### Decoding: words written out from the format of R60 (first digit `OP`, then 64 digits of angle) -/

/-- 95_test_vectors.md L2.5, `SIN 10^18`. -/
theorem test_decode_sin : decode 0x00000000000000000000000000000000000000000000000000DE0B6B3A7640000#257 =
    .sin 1000000000000000000#256 := by decide +kernel

/-- 95_test_vectors.md L2.5, `COS 2^256 − 1`. -/
theorem test_decode_cos : decode 0x1FFFFFFFFFFFFFFFFFFFFFFFFFFFFFFFFFFFFFFFFFFFFFFFFFFFFFFFFFFFFFFFF#257 =
    .cos (BitVec.allOnes 256) := by decide +kernel

theorem test_table_word_cos : decodeTableWord 264 (2 ^ 256) = some (.cos 0#256) := by decide +kernel

theorem test_wider_number_refused : decodeNumber (2 * 2 ^ 256) = .error .widerThanRequest := by decide +kernel

/-! ### One step of each operation (95_test_vectors.md L2.5) -/

/-- `SIN 10^18` from reset: RSP `0x0BAD8106EA81F7F6`. -/
theorem test_sin_one_radian :
    rqOf (step (State.reset.withFetchWord 264 0x00000000000000000000000000000000000000000000000000DE0B6B3A7640000)) =
      some 0x0BAD8106EA81F7F6#64 := by decide +kernel

/-- `SIN 2^256 − PI_OVER_TWO`, a negative result: RSP `0xFB24E362C14B1D2C`. -/
theorem test_sin_near_top :
    rqOf (step (State.reset.withFetchWord 264 0x0FFFFFFFFFFFFFFFFFFFFFFFFFFFFFFFFFFFFFFFFFFFFFFFFEA3369102EE6DB15)) =
      some 0xFB24E362C14B1D2C#64 := by decide +kernel

/-- `COS 10^18`: RSP `0x077F89E2DEFC5A6B`. -/
theorem test_cos_one_radian :
    rqOf (step (State.reset.withFetchWord 264 0x10000000000000000000000000000000000000000000000000DE0B6B3A7640000)) =
      some 0x077F89E2DEFC5A6B#64 := by decide +kernel

/-- `COS 2^256 − 1`, in the wrap band: RSP `0x0DE0B6B38BA29298`. -/
theorem test_cos_wrap_band :
    rqOf (step (State.reset.withFetchWord 264 0x1FFFFFFFFFFFFFFFFFFFFFFFFFFFFFFFFFFFFFFFFFFFFFFFFFFFFFFFFFFFFFFFF)) =
      some 0x0DE0B6B38BA29298#64 := by decide +kernel

/-! ### Stages -/

/-- R98: `cyclic = 0x12345678`. -/
theorem test_fields : (idxRaw 0x12345678#30, interp 0x12345678#30, tableIndex 0x12345678#30,
    isOddQuadrant 0x12345678#30, isNegativeQuadrant 0x12345678#30) = (35#8, 0x4567#16, 220#8, false, false) := by
  decide +kernel

/-- 95_test_vectors.md L2.1: the last `m` of cyclic 0, and one radian. -/
theorem test_normalizer : (normalizeAngle 5851672317#256, normalizeAngle 5851672318#256,
    normalizeAngle 1000000000000000000#256) = (0#30, 1#30, 0x0A2F9836#30) := by decide +kernel

/-- 95_test_vectors.md L2.3, the row of cyclic 0x12345678. -/
theorem test_interpolator : (interpStep 2095304369#32 2098151959#32 0x4567#16,
    sineMag false 2095304369#32 2098151959#32 0x4567#16) = (771989, 2097379970) := by decide +kernel

/-- R115: truncation toward zero on both sides. -/
theorem test_rescale : (rescale 202, rescale (-1), rescale 2) = (94063580079, -465661287, 931322575) := by
  decide +kernel

/-- 95_test_vectors.md L2.5, `SIN 4·10^18`, through the datapath of R170's widths. -/
theorem test_circuit : Circuit.sineCore amplitudeRom 4000000000000000000#256 = 0xF57F4D5C018892FB#64 := by
  decide +kernel

/-- 95_test_vectors.md L2.6: a presented request waits while the result is not taken, and the result stays. -/
theorem test_backpressure : rqOf (step (at_ (some 7#64) [.hold 0#257] false)) = some 7#64 ∧
    drivesOf (step (at_ (some 7#64) [.hold 0#257] false)) = [.hold 0#257] := by decide +kernel

/-- 95_test_vectors.md L2.6: delivery without a request. -/
theorem test_delivery : (at_ (some 7#64) [] true).delivered = some 7#64 ∧ rqOf (step (at_ (some 7#64) [] true)) = none :=
  ⟨rfl, rfl⟩

/-- 95_test_vectors.md L2.6: reset wins over a presented request and over delivery. -/
theorem test_reset_wins : rqOf (step (at_ (some 7#64) [.cycle true .high (.driven 0#257)] true)) = none := by decide +kernel

/-! ### Witnesses for the hypotheses of the statements -/

theorem witness_DecodeAndEncodeAreInverse : decodeTableWord 264 (2 * 2 ^ 256) = none ∧
    decodeTableWord 264 0x1FFFFFFFFFFFFFFFFFFFFFFFFFFFFFFFFFFFFFFFFFFFFFFFFFFFFFFFFFFFFFFFF =
      some (.cos (BitVec.allOnes 256)) := ⟨by decide +kernel, by decide +kernel⟩

theorem witness_EveryWordHasOneTableRow : ∃ r ∈ opTable, r.holds (BitVec.ofNat 257 (2 ^ 256)) = true ∧
    r.mnemonic = (decode (BitVec.ofNat 257 (2 ^ 256))).mnemonic := by decide +kernel

theorem witness_LoaderAdmitsWellFormedPrograms : ∃ t, State.reset.load [.ready [true], .cos (.lit 0)] = .ok t :=
  ⟨_, rfl⟩

theorem witness_OutputPortEquations : (at_ (some 7#64) [] true).pending = (at_ (some 7#64) [] false).pending ∧
    (at_ (some 7#64) [] true).rst = (at_ (some 7#64) [] false).rst := ⟨rfl, rfl⟩

theorem witness_StepRunsPresentedOperation :
    (at_ none [.hold (encode (.sin 5#256))] true).portIn.inValid = .high ∧
      (at_ none [.hold (encode (.sin 5#256))] true).portIn.inReq = .driven (encode (.sin 5#256)) := ⟨rfl, rfl⟩

/-- The four cases of R25: reset, acceptance with delivery, delivery alone, no change. -/
theorem witness_EdgeFollowsNextStateRule :
    ((at_ (some 7#64) [.cycle true .high (.driven 0#257)] true).drive.known = true ∧
      (at_ (some 7#64) [.cycle true .high (.driven 0#257)] true).rst = true) ∧
    ((at_ (some 7#64) [.cycle false .high (.driven 0#257)] true).drive.known = true ∧
      (at_ (some 7#64) [.cycle false .high (.driven 0#257)] true).accepted = some (.sin 0#256)) ∧
    ((at_ (some 7#64) [] true).rst = false ∧ (at_ (some 7#64) [] true).accepted = none ∧
      (at_ (some 7#64) [] true).dlv = true) ∧
    ((at_ (some 7#64) [] false).rst = false ∧ (at_ (some 7#64) [] false).accepted = none ∧
      (at_ (some 7#64) [] false).dlv = false ∧ (at_ (some 7#64) [] false).rom.wf) := by
  refine ⟨⟨rfl, rfl⟩, ⟨rfl, by decide +kernel⟩, ⟨rfl, rfl, rfl⟩, rfl, rfl, rfl, rfl⟩

theorem witness_HeldResultLeavesOnlyByDelivery : (at_ (some 7#64) [] false).rst = false ∧
    (at_ (some 7#64) [] false).rq = some 7#64 ∧ ∃ t, step (at_ (some 7#64) [] false) = .next t := ⟨rfl, rfl, _, rfl⟩

theorem witness_ResetEdgeClearsTheBlock : (at_ (some 7#64) [.cycle true .unknown .unknown] true).rom.wf ∧
    (at_ (some 7#64) [.cycle true .unknown .unknown] true).rst = true := ⟨rfl, rfl⟩

theorem witness_FirstCycleAfterResetAccepts : ∃ t,
    step (at_ (some 7#64) [.cycle true .low .unknown, .hold (encode (.cos 0#256))] false) = .next t ∧ t.rst = false ∧
      t.portIn.inValid = .high ∧ t.portIn.inReq = .driven (encode (.cos 0#256)) := ⟨_, rfl, rfl, rfl, rfl⟩

theorem witness_PresentedOperationWaits : (at_ (some 7#64) [.hold (encode (.sin 0#256))] false).rst = false ∧
    (at_ (some 7#64) [.hold (encode (.sin 0#256))] false).rq = some 7#64 ∧
    (at_ (some 7#64) [.hold (encode (.sin 0#256))] false).outReady = false ∧
    (at_ (some 7#64) [.hold (encode (.sin 0#256))] false).drive = .hold (encode (.sin 0#256)) := ⟨rfl, rfl, rfl, rfl⟩

/-- Two cycles of a consumer that is not ready after the acceptance, then one that takes the result. -/
def stalled : State := ⟨amplitudeRom, none, [.hold 0#257], [false, false, false], true, 0⟩

theorem witness_AcceptedResultIsHeldUntilTaken : stalled.rom.wf ∧ stalled.accepted = some (.sin 0#256) ∧
    (∀ k < 2, (stalled.after (k + 1)).rst = false ∧ (stalled.after (k + 1)).outReady = false) ∧
    (stalled.after 3).rst = false ∧ (stalled.after 3).outReady = true :=
  ⟨rfl, by decide +kernel, by decide +kernel, by decide +kernel, by decide +kernel⟩

theorem witness_LatencyAndThroughput :
    (stalled.accepted = some (.sin 0#256) ∧ (stalled.after 1).rst = false) ∧
    ((at_ (some 7#64) [] true).rst = false ∧ (at_ (some 7#64) [] true).outReady = true) ∧
    ((at_ none [] false).rst = false ∧ (at_ none [] false).vq = false) ∧
    ((at_ (some 7#64) [] false).vq = true ∧ (at_ (some 7#64) [] false).outReady = false) :=
  ⟨⟨by decide +kernel, by decide +kernel⟩, ⟨rfl, rfl⟩, ⟨rfl, rfl⟩, rfl, rfl⟩

/-- A held result, a held request, and a consumer that is ready in the third cycle. -/
def waiting : State := ⟨amplitudeRom, some 7#64, [.hold 0#257], [false, false], true, 0⟩

theorem witness_HeldRequestIsAcceptedOnceConsumerReady : waiting.drive = .hold 0#257 ∧
    (waiting.after 2).outReady = true := ⟨rfl, by decide +kernel⟩

theorem witness_UnacceptedInputsAreNotRead :
    State.inReady { at_ (some 7#64) [] false with drives := [.cycle false .high (.driven 0#257)] } = false := rfl

theorem witness_UnknownInputsTakeFreeValues :
    (at_ (some 7#64) [.cycle false .high .unknown] true).inReady = true ∧
    (at_ (some 7#64) [.cycle false .high .unknown] true).portIn.inValid = .high ∧
    (at_ (some 7#64) [.cycle false .high .unknown] true).portIn.inReq = .unknown ∧
    (at_ none [.cycle false .unknown (.driven 0#257)] true).inReady = true ∧
    (at_ none [.cycle false .unknown (.driven 0#257)] true).portIn.inValid = .unknown ∧
    (at_ none [.cycle false .unknown (.driven 0#257)] true).portIn.inReq = .driven 0#257 ∧
    (at_ none [] true).rom.wf := ⟨rfl, rfl, rfl, rfl, rfl, rfl, rfl⟩

theorem witness_OperationFrame : (∃ t, exec (.cos 0#256) (at_ none [] true) = .next t) ∧
    (at_ (some 7#64) [] false).inReady = false ∧ (at_ (some 7#64) [] false).rst = false := ⟨⟨_, rfl⟩, rfl, rfl⟩

theorem witness_NothingWritesTheRom : ∃ t, step (at_ none [.cycle true .low .unknown] true) = .next t := ⟨_, rfl⟩

theorem witness_CyclicIsMonotoneWithExactQuarters : Config.twoPi - 1 < Config.twoPi ∧
    (rescaleCycle (Config.twoPi - 1)).toNat = 2 ^ 30 - 1 ∧ (rescaleCycle (3 * Config.piOverTwo)).toNat = 3 * 2 ^ 28 := by
  decide +kernel

/-- The cell of 0 ends at `m = 5851672317` (R85). -/
theorem witness_CyclicCellBounds : rescaleCycle 5851672317 = 0#30 ∧ rescaleCycle 5851672318 ≠ 0#30 ∧
    (rescaleCycle (Config.twoPi - 1)).toNat = 2 ^ 30 - 1 := by decide +kernel

/-- The last angle before the wrap band and the first of it (95_test_vectors.md L2.1). -/
theorem witness_CosWrapBand :
    (BitVec.ofNat 256 (2 ^ 256 - Config.piOverTwo - 1)).toNat < 2 ^ 256 - Config.piOverTwo ∧
    2 ^ 256 - Config.piOverTwo ≤ (BitVec.ofNat 256 (2 ^ 256 - Config.piOverTwo)).toNat ∧
    (theta true (BitVec.ofNat 256 (2 ^ 256 - Config.piOverTwo))).toNat = 0 := by decide +kernel

theorem witness_NormalizerIsPeriodic :
    (BitVec.ofNat 256 (1000000000000000000 + Config.twoPi)).toNat = (1000000000000000000#256).toNat + 1 * Config.twoPi := by
  decide +kernel

/-- `x = 1` and `x = 2^256`, the ends of the range. -/
theorem witness_UnsignedWrapIsNotNegation : (BitVec.allOnes 256).toNat = 2 ^ 256 - 1 ∧
    (reduce (BitVec.allOnes 256) : Int) = 1213325524996631571 ∧ (0#256).toNat = 2 ^ 256 - 2 ^ 256 := by decide +kernel

/-- The first and the last phase of each quadrant (R95). -/
theorem witness_QuadrantsByPhase :
    [0, Config.piOverTwo - 1, Config.piOverTwo, Config.piFp - 1, Config.piFp, 3 * Config.piOverTwo - 1,
        3 * Config.piOverTwo, Config.twoPi - 1].map
      (fun m => (isOddQuadrant (rescaleCycle m), isNegativeQuadrant (rescaleCycle m))) =
    [(true, false), (true, false), (false, false), (false, false), (true, true), (true, true), (false, true),
      (false, true)] := by decide +kernel

theorem witness_LowCyclicBitsAreDiscarded : (0x12345678#30).toNat / 2 ^ 4 = (0x1234567F#30).toNat / 2 ^ 4 := by
  decide +kernel

/-- 95_test_vectors.md L2.3: the odd maximum and the even minimum. -/
theorem witness_MagnitudeRange :
    (isOddQuadrant 0x0FFFFFFF#30 = true ∧ magnitude amplitudeRom 0x0FFFFFFF#30 = 2147483646) ∧
    (isOddQuadrant 0x1FFFFFFF#30 = false ∧ magnitude amplitudeRom 0x1FFFFFFF#30 = 202) := by decide +kernel

/-- The first sample points of an odd and of an even quadrant. -/
theorem witness_SamplePointsReadTheTable :
    (interp 0x20000000#30 = 0#16 ∧ isOddQuadrant 0x20000000#30 = true ∧ (idxRaw 0x20000000#30).toNat = 0) ∧
    (interp 0x10000000#30 = 0#16 ∧ isOddQuadrant 0x10000000#30 = false ∧ 256 - (idxRaw 0x10000000#30).toNat = 256) := by
  decide +kernel

/-- The ends of the range of `sine`. -/
theorem witness_RescaleTruncatesTowardZero :
    (-(2 ^ 31 - 1) ≤ (2147483647 : Int) ∧ (2147483647 : Int) ≤ 2 ^ 31 - 1) ∧ rescale (-2147483647) = -(10 ^ 18) := by
  decide +kernel

theorem witness_RescaleProperties : (-202 : Int) ≤ -1 ∧ rescale (-202) ≤ rescale (-1) ∧
    rescale (2 ^ 31 - 1) ≤ 10 ^ 18 := by decide +kernel

/-- The ends of the range of results (95_test_vectors.md L2.4). -/
theorem witness_ResponseCarriesTheResult :
    sext64 (-(10 ^ 18)) = 0xF21F494C589C0000#64 ∧ sext64 (10 ^ 18) = 0x0DE0B6B3A7640000#64 := by decide +kernel

/-- A block that holds nothing, and one whose result is taken at the same edge. -/
theorem witness_SinCompletes_CosCompletes :
    ((at_ none [] false).rom.wf ∧ (at_ none [] false).rst = false ∧ (at_ none [] false).vq = false) ∧
    ((at_ (some 7#64) [] true).rom.wf ∧ (at_ (some 7#64) [] true).rst = false ∧
      (at_ (some 7#64) [] true).outReady = true) := ⟨⟨rfl, rfl, rfl⟩, rfl, rfl, rfl⟩

theorem witness_SinIsPeriodic : (BitVec.ofNat 256 (2 ^ 256 - Config.twoPi - 1)).toNat < 2 ^ 256 - Config.twoPi := by
  decide +kernel

/-- The last small angle, and one full turn. -/
theorem witness_SmallAnglesAndFullTurnsGiveZero : (5851672317#256).toNat < 5851672318 ∧
    (BitVec.ofNat 256 Config.twoPi).toNat = 1 * Config.twoPi := by decide +kernel

theorem witness_ResultDependsOnRequestAlone : (at_ none [] false).rom = (at_ (some 7#64) [.hold 0#257] true).rom ∧
    (at_ none [] false).inReady = true ∧ (at_ (some 7#64) [.hold 0#257] true).inReady = true := ⟨rfl, rfl, rfl⟩

/-- A state that is not the reset state: it holds the answer to `COS 0`. -/
theorem witness_StepKeepsInvariant : (at_ (some (responseOf (.cos 0#256))) [.hold 0#257] true).Inv ∧
    ∃ t, step (at_ (some (responseOf (.cos 0#256))) [.hold 0#257] true) = .next t :=
  ⟨⟨rfl, fun r hr => ⟨.cos 0#256, (Option.some.inj hr).symm⟩, fun d hd => by
    rcases List.mem_singleton.1 hd with rfl
    rfl⟩, _, step_of_known _ rfl⟩

theorem witness_ResponsesAnswerRequestsInOrder : waiting.rom.wf ∧ waiting.KnownInputs ∧
    ∀ k < 3, (waiting.after k).rst = false := ⟨rfl, by decide +kernel, by decide +kernel⟩

end Sys2Proof.Machine.Tests
end

section
/-! PROOFS. The rescaler (R112): its value on either sign, and the size of the product that it divides. -/

namespace Sys2Proof.Machine

/-- Truncation toward zero is odd-symmetric (R113). -/
theorem rescale_neg (sine : Int) : rescale (-sine) = -rescale sine := by
  rw [rescale, Int.neg_mul, Int.neg_tdiv, rescale]

/-- At `sine ≥ 0` truncation is the floor (R10). -/
theorem rescale_natCast (n : Nat) : rescale n = (n * Config.scale / Config.amp : Nat) := by
  rw [rescale, ← Int.natCast_mul, Int.ofNat_tdiv]

theorem natAbs_mul_scale_le {sine : Int} (hlo : -(2 ^ 31 - 1) ≤ sine) (hhi : sine ≤ 2 ^ 31 - 1) :
    (sine * 10 ^ 18).natAbs ≤ 2147483647 * 10 ^ 18 := by
  have hsine : sine.natAbs ≤ 2147483647 := by omega
  rw [Int.natAbs_mul]
  exact Nat.mul_le_mul_right _ hsine

/-- Settles O41: a non-negative `sine` is divided as a natural number, odd symmetry gives the negative one, and the
bound on `sine` gives the product's. -/
theorem rescaleTruncatesTowardZero : Obligations.RescaleTruncatesTowardZero := by
  refine ⟨fun n => ⟨rescale_natCast n, ?_⟩, fun sine hlo hhi => ?_⟩
  · exact (rescale_neg n).trans (congrArg Neg.neg (rescale_natCast n))
  · have hle := natAbs_mul_scale_le hlo hhi
    exact ⟨hle, hle.trans_lt (by norm_num)⟩

end Sys2Proof.Machine
end

section
/-! PROOFS. The datapath over the table of R42 is the pseudocode of R120: the magnitude as a natural number, and the stages
put together. -/

namespace Sys2Proof.Machine

theorem romList_getD_le_succ : ∀ k < 256, (romList.getD k 0).toNat ≤ (romList.getD (k + 1) 0).toNat := by
  decide +kernel

/-- `sine_mag` over natural numbers, as R120 writes it. -/
def natMag (odd : Bool) (x1 x2 f : Nat) : Nat :=
  if odd then x1 + (x2 - x1) * f / 2 ^ 16 else x2 - (x2 - x1) * f / 2 ^ 16

/-- Between two words that do not fall, the interpolation never leaves the natural numbers (R102, R103). -/
theorem sineMag_eq_natMag (odd : Bool) {x1 x2 : RomWord} (h : x1.toNat ≤ x2.toNat) (f : Fraction) :
    sineMag odd x1 x2 f = natMag odd x1.toNat x2.toNat f.toNat := by
  have hstep : interpStep x1 x2 f = ((x2.toNat - x1.toNat) * f.toNat / 2 ^ 16 : Nat) := by
    rw [interpStep, difference]
    push_cast [h]
    rfl
  have hle : (x2.toNat - x1.toNat) * f.toNat / 2 ^ 16 ≤ x2.toNat :=
    (Nat.div_le_of_le_mul (by rw [mul_comm]; exact Nat.mul_le_mul_right _ f.isLt.le)).trans (Nat.sub_le _ _)
  cases odd
  · simp only [sineMag, natMag, hstep, Bool.false_eq_true, if_false, Nat.cast_sub hle]
  · simp only [sineMag, natMag, hstep, if_true, Nat.cast_add]

/-- The interpolator over the table, by the words of R42 at the mirrored index and the next one. -/
theorem magnitude_amplitudeRom (c : Cyclic) :
    magnitude amplitudeRom c = natMag (isOddQuadrant c) (romList.getD (tableIndex c).toNat 0).toNat
      (romList.getD ((tableIndex c).toNat + 1) 0).toNat (interp c).toNat := by
  have hle := romList_getD_le_succ _ (tableIndex c).isLt
  rw [magnitude, readWord_amplitudeRom, readWord_amplitudeRom, lowIndex_val, highIndex_val, sineMag_eq_natMag _ hle]

/-- The normalizer over the integers (R81, R82). -/
theorem normalizeAngle_toNat (phase : Angle) :
    (normalizeAngle phase).toNat = 2 ^ 30 * (phase.toNat % Config.twoPi) / Config.twoPi :=
  rescaleCycle_toNat _ (reduce_lt phase)

/-- The datapath over the table computes R120's pseudocode, stage by stage. -/
theorem sineCore_amplitudeRom (phase : Angle) :
    sineCore amplitudeRom phase = sineCorePseudocode phase.toNat := by
  rw [sineCore, resultOfCyclic, magnitude_amplitudeRom, tableIndex, mirror_toNat, idxRaw_toNat, interp_toNat,
    isOddQuadrant_eq, isNegativeQuadrant_eq, normalizeAngle_toNat]
  simp only [applySign, natMag, decide_eq_true_eq]
  rfl

end Sys2Proof.Machine
end

section
/-! PROOFS. The decoder reads back what the encoder wrote (R60, R67). -/

namespace Sys2Proof

/-- The decoder by the number of the word: bit 256 is the quotient and the angle the remainder (R60). -/
theorem decode_eq_of_toNat {w : Request} {op : Bool} {a : Angle} (h : w.toNat = op.toNat * 2 ^ 256 + a.toNat) :
    decode w = if op then .cos a else .sin a := by
  have ha := a.isLt
  have hop : opField w = op := by
    rw [opField, Machine.getLsbD_eq_div_mod, h]
    cases op <;> simp <;> omega
  have hangle : angleField w = a := by
    apply BitVec.eq_of_toNat_eq
    rw [angleField, BitVec.extractLsb'_toNat, h]
    cases op <;> simpa using ha
  rw [decode, hop, hangle]

@[simp] theorem decode_encode (i : Instr) : decode (encode i) = i := by
  cases i with
  | sin a =>
    exact decode_eq_of_toNat (op := false) (Nat.mod_eq_of_lt (by have := a.isLt; omega))
  | cos a =>
    exact decode_eq_of_toNat (op := true) (Nat.mod_eq_of_lt (by have := a.isLt; omega))

end Sys2Proof
end

section
/-! PROOFS. The request port in a cycle: what it presents, what it accepts, and a held request. -/

namespace Sys2Proof.Machine

theorem step_of_driven {s : State} {w : Request} (hv : s.portIn.inValid = .high) (hq : s.portIn.inReq = .driven w) :
    step s = exec (decode w) s := by
  rw [step, State.fetch, hv, hq]
  rfl

theorem State.accepted_of_driven {s : State} {w : Request} (hv : s.portIn.inValid = .high)
    (hq : s.portIn.inReq = .driven w) : s.accepted = if s.inReady then some (decode w) else none := by
  rw [State.accepted, hv, hq]

theorem State.portIn_of_hold {s : State} {w : Request} (h : s.drive = .hold w) :
    s.portIn = ⟨false, .high, .driven w, s.outReady⟩ := by
  rw [State.portIn, h]

theorem State.rst_of_hold {s : State} {w : Request} (h : s.drive = .hold w) : s.rst = false := by
  rw [State.rst, State.portIn_of_hold h]

theorem State.accepted_of_hold {s : State} {w : Request} (h : s.drive = .hold w) (hr : s.inReady = true) :
    s.accepted = some (decode w) := by
  have hp := State.portIn_of_hold h
  rw [State.accepted_of_driven (w := w) (by rw [hp]) (by rw [hp]), if_pos hr]

theorem step_of_hold {s : State} {w : Request} (h : s.drive = .hold w) : step s = exec (decode w) s := by
  have hp := State.portIn_of_hold h
  exact step_of_driven (by rw [hp]) (by rw [hp])

/-- A held request that is not accepted stays in front (R70). -/
theorem nextDrives_false_of_hold {s : State} {w : Request} (h : s.drive = .hold w) :
    nextDrives false s.drives = s.drives := by
  unfold State.drive at h
  cases hd : s.drives with
  | nil => simp [hd, Drive.idle] at h
  | cons d rest =>
    obtain rfl : d = .hold w := by simpa [hd] using h
    rfl

end Sys2Proof.Machine
end

section
/-! PROOFS. The rising edge (R25): what is held after it, and the whole state after an operation. -/

namespace Sys2Proof.Machine

@[simp] theorem State.acc_true (s : State) : s.acc true = s.inReady := Bool.true_and _

theorem State.nextPending_of_not_acc {s : State} {request : Option Response} (hr : s.rst = false)
    (ha : s.acc request.isSome = false) : s.nextPending request = if s.dlv then none else s.rq := by
  simp [State.nextPending, hr, ha, State.rq]

/-- A word held after an edge was captured by it or was held before. -/
theorem State.mem_nextPending {s : State} {request : Option Response} {r : Response} (h : r ∈ s.nextPending request) :
    r ∈ request ∨ r ∈ s.pending := by
  obtain ⟨-, hn⟩ | ⟨-, -, hn⟩ | ⟨-, -, -, hn⟩ | ⟨-, -, -, hn⟩ := s.nextPending_cases request
  all_goals rw [hn] at h
  · simp at h
  · exact .inl h
  · simp at h
  · exact .inr h

/-- The registers after any step, whatever the inputs: those of one edge at the same state. -/
theorem State.pending_of_step {s t : State} (h : step s = .next t) : ∃ request, t.pending = s.nextPending request := by
  obtain ⟨u, request, hu, hs⟩ := step_eq_clockEdge s
  obtain rfl : t = u.clockEdge request := by simpa [hs] using h.symm
  obtain rfl | rfl | rfl := hu <;> exact ⟨request, rfl⟩

/-- The state after an edge at which the ready block captures a word. -/
theorem State.clockEdge_of_inReady {s : State} (r : Response) (h : s.inReady = true) :
    s.clockEdge (some r) =
      { s with pending := some r, drives := nextDrives true s.drives, readies := s.readies.tail } := by
  simp only [State.clockEdge, State.advance, s.nextPending_of_inReady r h, Option.isSome_some, State.acc_true, h]

/-- The state after an edge at which a held word is not taken. -/
theorem State.clockEdge_of_held {s : State} {r : Response} (request : Option Response) (hr : s.rst = false)
    (hp : s.pending = some r) (ho : s.outReady = false) :
    s.clockEdge request = { s with drives := nextDrives false s.drives, readies := s.readies.tail } := by
  have hn : s.inReady = false := s.inReady_eq_false_iff.2 (.inr ⟨by simp [State.vq, hp], ho⟩)
  simp only [State.clockEdge, State.advance, s.nextPending_of_held request r hr hp ho, s.acc_of_not_inReady _ hn, hp]

/-- An operation where the block is ready, over the table of R42: R120's pseudocode at the operation's phase. -/
theorem exec_of_inReady {s : State} (i : Instr) (hrom : s.rom.wf) (h : s.inReady = true) :
    exec i s = .next { s with
      pending := some (BitVec.ofInt 64 (sineCorePseudocode (phaseOf i).toNat)),
      drives := nextDrives true s.drives, readies := s.readies.tail } := by
  rw [exec_eq_clockEdge, State.clockEdge_of_inReady _ h, hrom, sineCore_amplitudeRom, sext64]

/-- An operation presented while a held word is not taken. -/
theorem exec_of_held {s : State} {r : Response} (i : Instr) (hr : s.rst = false) (hp : s.pending = some r)
    (ho : s.outReady = false) :
    exec i s = .next { s with drives := nextDrives false s.drives, readies := s.readies.tail } := by
  rw [exec_eq_clockEdge, State.clockEdge_of_held _ hr hp ho]

/-- A held request that the block does not accept is presented again in the next cycle. -/
theorem State.drive_after_one_of_hold {s : State} {w : Request} (h : s.drive = .hold w) (hn : s.inReady = false) :
    (s.after 1).drive = .hold w := by
  have hstep := step_of_hold h
  rw [exec_eq_clockEdge] at hstep
  rw [State.after_one_of_step hstep, State.drive, State.clockEdge_drives, s.acc_of_not_inReady _ hn,
    nextDrives_false_of_hold h]
  exact h

theorem State.not_acc_offered {s : State} (h : s.accepted = none) : s.acc s.offered.isSome = false := by
  rw [s.acc_offered, h, Option.isSome_none]

/-- Over the table, an accepted operation leaves its answer in `r_q` (R25, R26). -/
theorem State.nextPending_of_accepted {s : State} {i : Instr} (hrom : s.rom.wf) (h : s.accepted = some i) :
    s.nextPending s.offered = some (responseOf i) := by
  obtain ⟨hr, ho⟩ := s.offered_of_accepted i h
  rw [ho, s.nextPending_of_inReady _ hr, hrom, responseOf_eq]

theorem State.isAnswer_of_offered {s : State} (hrom : s.rom.wf) {r : Response} (h : r ∈ s.offered) :
    Response.IsAnswer r := by
  unfold State.offered at h
  split at h
  next w _ _ =>
    exact ⟨decode w, by rw [responseOf_eq, ← hrom]; exact (Option.some.inj h).symm⟩
  next => cases h

end Sys2Proof.Machine
end

section
/-! PROOFS. The interface and the edge: ports, presented operations, held results, completion, frame. -/

namespace Sys2Proof.Machine

/-- Settles O7: the ports are defined by R23's equations, and `out_valid` and `out_result` read the registers and `rst`. -/
theorem outputPortEquations : Obligations.OutputPortEquations := by
  refine ⟨fun s => ⟨rfl, rfl, rfl⟩, fun s t hp hr => ⟨?_, hp⟩⟩
  simp only [State.portOut, State.outValid, State.vq, hp, hr]

/-- Settles O8: the fetch reads the word on the port, and an encoded operation decodes to itself. -/
theorem stepRunsPresentedOperation : Obligations.StepRunsPresentedOperation := by
  refine ⟨fun s w hv hq => step_of_driven hv hq, fun s i hv hq => ?_⟩
  rw [step_of_driven hv hq, decode_encode]

/-- Settles O10: with known inputs the step is one edge, and each case of R25 says what it holds. -/
theorem edgeFollowsNextStateRule : Obligations.EdgeFollowsNextStateRule := by
  intro s hrom hknown
  refine ⟨_, step_of_known s hknown, fun hr => ?_, fun i ha => ?_, fun hr ha hd => ?_, fun hr ha hd => ?_⟩
  · simp [s.nextPending_of_rst _ hr]
  · simp [State.nextPending_of_accepted hrom ha, responseOf]
  · simp [State.nextPending_of_not_acc hr (State.not_acc_offered ha), hd]
  · simp [State.nextPending_of_not_acc hr (State.not_acc_offered ha), hd, State.vq, State.rq]

/-- Settles O11: a consumer that is ready takes the held word, and without it no edge changes that word. -/
theorem heldResultLeavesOnlyByDelivery : Obligations.HeldResultLeavesOnlyByDelivery := by
  intro s t r hr hq hstep
  obtain ⟨request, ht⟩ := State.pending_of_step hstep
  cases ho : s.outReady with
  | false => exact .inl ⟨ht.trans (s.nextPending_of_held request r hr hq ho), rfl⟩
  | true =>
    have hv : s.vq = true := Option.isSome_of_mem hq
    exact .inr ⟨by rw [State.delivered, if_pos (s.dlv_eq_true_iff.2 ⟨hr, hv, ho⟩), hq], rfl⟩

/-- Settles O14: the reset edge leaves nothing held, so the block is ready in the next cycle without `rst`. -/
theorem firstCycleAfterResetAccepts : Obligations.FirstCycleAfterResetAccepts := by
  intro s t hr hstep hrt
  obtain ⟨request, ht⟩ := State.pending_of_step hstep
  have hv : t.vq = false := by rw [State.vq, ht, s.nextPending_of_rst _ hr, Option.isSome_none]
  have hready : t.inReady = true := t.inReady_eq_true_iff.2 ⟨hrt, .inl hv⟩
  refine ⟨hready, fun i hvalid hreq => ?_⟩
  rw [State.accepted_of_driven hvalid hreq, if_pos hready, decode_encode]

/-- Settles O15: the edge keeps the held word, and it keeps a held request in front. -/
theorem presentedOperationWaits : Obligations.PresentedOperationWaits := by
  intro i s r hr hq ho
  have hexec := exec_of_held i hr hq ho
  refine ⟨hexec, fun hd => ?_⟩
  have hstep : step s = exec i s := by rw [step_of_hold hd, decode_encode]
  refine ⟨_, hstep.trans hexec, ?_, hq⟩
  rwa [State.drive, nextDrives_false_of_hold hd]

/-- Settles O18, by induction on the number of cycles until the consumer is ready: a ready block accepts now, and one that
is not ready presents the request again in the next cycle. -/
theorem heldRequestIsAcceptedOnceConsumerReady : Obligations.HeldRequestIsAcceptedOnceConsumerReady := by
  intro n
  induction n with
  | zero =>
    intro s w hd ho
    have hready : s.inReady = true := s.inReady_eq_true_iff.2 ⟨State.rst_of_hold hd, .inr ho⟩
    exact ⟨0, le_rfl, State.accepted_of_hold hd hready, fun j hj => by rwa [Nat.le_zero.1 hj]⟩
  | succ n ih =>
    intro s w hd ho
    cases hready : s.inReady with
    | true => exact ⟨0, n.succ.zero_le, State.accepted_of_hold hd hready, fun j hj => by rwa [Nat.le_zero.1 hj]⟩
    | false =>
      obtain ⟨k, hk, hacc, hheld⟩ := ih (s.after 1) w (State.drive_after_one_of_hold hd hready) (s.after_succ n ▸ ho)
      refine ⟨k + 1, Nat.succ_le_succ hk, s.after_succ k ▸ hacc, fun j hj => ?_⟩
      cases j with
      | zero => exact hd
      | succ j => exact s.after_succ j ▸ hheld j (Nat.le_of_succ_le_succ hj)

/-- Settles O21: an operation is one edge, which writes `v_q` and `r_q` and moves the environment on; a block that is not
ready without reset holds a word that is not taken. -/
theorem operationFrame : Obligations.OperationFrame := by
  intro i s t h
  obtain rfl : t = s.clockEdge _ := (Host.Outcome.next.inj ((exec_eq_clockEdge i s).symm.trans h)).symm
  refine ⟨rfl, fun _ => rfl, rfl, rfl, rfl, by simp, fun hn hr => ?_⟩
  obtain hr' | ⟨hv, ho⟩ := s.inReady_eq_false_iff.1 hn
  · exact absurd hr' (by simp [hr])
  · obtain ⟨r, hp⟩ := Option.isSome_iff_exists.1 hv
    exact (s.nextPending_of_held _ r hr hp ho).trans hp.symm

/-- Settles O45: the block is ready, and the phase of SIN is its angle. -/
theorem sinCompletes : Obligations.SinCompletes := fun a s hrom hr hv =>
  exec_of_inReady (.sin a) hrom (s.inReady_eq_true_iff.2 ⟨hr, hv⟩)

/-- Settles O46: the block is ready, and the phase of COS is the wrapped sum. -/
theorem cosCompletes : Obligations.CosCompletes := by
  intro a s hrom hr hv
  rw [← phaseAdd_toNat]
  exact exec_of_inReady (.cos a) hrom (s.inReady_eq_true_iff.2 ⟨hr, hv⟩)

end Sys2Proof.Machine
end

section
/-! PROOFS. The invariant of runs with known inputs, and the order of responses over any number of cycles. -/

namespace Sys2Proof.Machine

/-- Settles O54: the reset state has the table, holds nothing, and nothing is driven. -/
theorem invariantAtReset : Obligations.InvariantAtReset where
  rom := wf_amplitudeRom
  answer _ hr := by cases hr
  known _ hd := by cases hd

/-- Settles O55: with known inputs the step is one edge, which keeps the ROM, drops inputs and adds none, and holds either
what the cycle offers, which is an answer over the table, or what it held. -/
theorem stepKeepsInvariant : Obligations.StepKeepsInvariant := by
  rintro s t ⟨hrom, hanswer, hknown⟩ hstep
  obtain rfl : t = s.clockEdge s.offered := by simpa [step_of_known s hknown.drive] using hstep.symm
  refine ⟨State.wf_clockEdge hrom _, fun r hr => ?_, hknown.clockEdge _⟩
  obtain hoff | hheld := State.mem_nextPending hr
  · exact State.isAnswer_of_offered hrom hoff
  · exact hanswer r hheld

/-- An accepting block holds nothing or delivers what it holds, at the same edge. -/
theorem State.delivered_of_inReady {s : State} (h : s.inReady = true) : s.delivered = s.rq := by
  cases hv : s.vq with
  | true => rw [State.delivered, if_pos (s.dlv_of_inReady_of_vq h hv)]
  | false =>
    have hq : s.rq = none := by simpa [State.vq, State.rq] using hv
    rw [State.delivered, hq, ite_self]

/-- The conservation law of one edge: what was held and the answer to what is accepted go out, or are held next. -/
theorem State.responses_conserved {s : State} (hrom : s.rom.wf) (hr : s.rst = false) :
    s.rq.toList ++ s.accepted.toList.map responseOf = s.delivered.toList ++ (s.nextPending s.offered).toList := by
  cases ha : s.accepted with
  | some i =>
    rw [State.nextPending_of_accepted hrom ha, State.delivered_of_inReady (s.offered_of_accepted i ha).1]
    rfl
  | none =>
    rw [State.nextPending_of_not_acc hr (State.not_acc_offered ha), State.delivered]
    cases s.dlv <;> simp

/-- Settles O56, by induction on the number of cycles: each edge conserves the responses. -/
theorem responsesAnswerRequestsInOrder : Obligations.ResponsesAnswerRequestsInOrder := by
  intro n
  induction n with
  | zero =>
    intro s _ _ _
    simp [State.acceptedIn, State.deliveredIn, State.after_zero]
  | succ n ih =>
    intro s hrom hknown hrst
    have hstep := State.after_one_of_step (step_of_known s hknown.drive)
    have hedge := State.responses_conserved hrom (hrst 0 n.succ_pos)
    have hrest := ih (s.after 1) (hstep ▸ State.wf_clockEdge hrom _) (hstep ▸ hknown.clockEdge _)
      fun k hk => s.after_succ k ▸ hrst (k + 1) (Nat.succ_lt_succ hk)
    have hnext : (s.after 1).rq = s.nextPending s.offered := by rw [hstep, State.clockEdge_rq]
    calc s.rq.toList ++ (s.acceptedIn (n + 1)).map responseOf
        = s.rq.toList ++ s.accepted.toList.map responseOf ++ ((s.after 1).acceptedIn n).map responseOf := by
          rw [State.acceptedIn, List.map_append, List.append_assoc]
      _ = s.delivered.toList ++ ((s.after 1).rq.toList ++ ((s.after 1).acceptedIn n).map responseOf) := by
          rw [hedge, hnext, List.append_assoc]
      _ = s.deliveredIn (n + 1) ++ (s.after (n + 1)).rq.toList := by
          rw [hrest, State.deliveredIn, s.after_succ n, List.append_assoc]

end Sys2Proof.Machine
end

section
/-! PROOFS. The ROM (R40 to R45): no step writes it, its words are the rounded real sine, and its steps over the table with
what the interpolator makes of one step (R101, R102). -/

namespace Sys2Proof.Machine

/-- Whatever a cycle's inputs, its step leaves the ROM as it is (R45). -/
theorem State.rom_of_step {s t : State} (h : step s = .next t) : t.rom = s.rom := by
  obtain ⟨u, request, hu, hs⟩ := step_eq_clockEdge s
  obtain rfl : t = u.clockEdge request := by simpa [hs] using h.symm
  obtain rfl | rfl | rfl := hu <;> rfl

/-- Settles O22: the reset state holds the table, and a step leaves the whole ROM as it is. -/
theorem nothingWritesTheRom : Obligations.NothingWritesTheRom :=
  ⟨wf_amplitudeRom, fun _ _ h _ => by rw [State.rom_of_step h]⟩

/-- A word nearer than one half to the real sine at full scale is that sine rounded (R41). -/
theorem round_sine_eq_readWord (k : Fin Config.tableN) :
    round (Real.sin (k.val * (Real.pi / 512)) * 2147483647) = ((amplitudeRom.readWord k).toNat : ℤ) := by
  obtain ⟨hlo, hhi⟩ := abs_lt.1 (RomFormula.abs_sine_sub_word_lt k)
  rw [round_eq_iff, Int.cast_natCast]
  constructor <;> linarith

/-- Settles O23: both forms of R41 are the sine of `k` turns by `π/512` at full scale. -/
theorem romIsTheRoundedSine : Obligations.RomIsTheRoundedSine := by
  intro k
  have hquarter : (k.val : ℝ) * (Real.pi / 2) / 256 = k.val * (Real.pi / 512) := by ring
  have hfull : (2 : ℝ) ^ 31 - 1 = 2147483647 := by norm_num
  rw [hquarter, hfull, mul_div_assoc, round_sine_eq_readWord]
  exact ⟨rfl, rfl⟩

theorem difference_romList_bounds : ∀ k < 256,
    40426 ≤ difference (romList.getD k 0) (romList.getD (k + 1) 0) ∧
      difference (romList.getD k 0) (romList.getD (k + 1) 0) ≤ 13176712 := by
  decide +kernel

/-- The table grows from each word to the next one, by a step of at most 24 bits (R42, R101). -/
theorem difference_amplitudeRom_bounds {j k : Fin Config.tableN} (h : k.val = j.val + 1) :
    40426 ≤ difference (amplitudeRom.readWord j) (amplitudeRom.readWord k) ∧
      difference (amplitudeRom.readWord j) (amplitudeRom.readWord k) ≤ 13176712 := by
  rw [readWord_amplitudeRom, readWord_amplitudeRom, h]
  exact difference_romList_bounds _ (Nat.lt_of_succ_lt_succ (h.symm.trans_lt k.isLt))

theorem romList_getLsbD_31 : ∀ k < 257, (romList.getD k 0).getLsbD 31 = false := by
  decide +kernel

theorem romList_sum : (romList.map BitVec.toNat).sum = 351058064691 := by
  decide +kernel

/-- Settles O24: the single words and the sum are read off the list of R42, and each step lies within the table's bounds. -/
theorem romContentsProperties : Obligations.RomContentsProperties := by
  refine ⟨?first, ?last, fun k => ?bit31, fun k => difference_amplitudeRom_bounds rfl, ?middle, romList_sum⟩
  case bit31 =>
    rw [readWord_amplitudeRom]
    exact romList_getLsbD_31 k.val k.isLt
  all_goals
    rw [readWord_amplitudeRom]
    rfl

/-- Between two words that do not fall, the floor of R102 does not fall below 0. -/
theorem interpStep_nonneg {x1 x2 : RomWord} (h : 0 ≤ difference x1 x2) (f : Fraction) : 0 ≤ interpStep x1 x2 f :=
  Int.ediv_nonneg (Int.mul_nonneg h (Int.natCast_nonneg _)) (by norm_num)

/-- The fraction is below one, so the interpolation step is below the difference (R91, R102). -/
theorem interpStep_lt_difference {x1 x2 : RomWord} (h : 0 < difference x1 x2) (f : Fraction) :
    interpStep x1 x2 f < difference x1 x2 :=
  Int.ediv_lt_of_lt_mul (by norm_num) (mul_lt_mul_of_pos_left (by exact_mod_cast f.isLt) h)

theorem interpStep_eq_zero_iff {x1 x2 : RomWord} (h : 0 ≤ difference x1 x2) (f : Fraction) :
    interpStep x1 x2 f = 0 ↔ difference x1 x2 * f.toNat < 65536 := by
  have hproduct : 0 ≤ difference x1 x2 * f.toNat := Int.mul_nonneg h (Int.natCast_nonneg _)
  rw [interpStep]
  omega

/-- A difference of at most the table's greatest step times a fraction fits 40 bits (R102, R170). -/
theorem difference_mul_fraction_lt {x1 x2 : RomWord} (h : difference x1 x2 ≤ 13176712) (f : Fraction) :
    difference x1 x2 * f.toNat < 2 ^ 40 :=
  calc difference x1 x2 * f.toNat ≤ 13176712 * f.toNat := mul_le_mul_of_nonneg_right h (Int.natCast_nonneg _)
    _ < 2 ^ 40 := by have := f.isLt; omega

/-- Settles O37: the two reads are neighbours in the table, whose step is positive and at most 13176712. -/
theorem interpolationStepBounds : Obligations.InterpolationStepBounds := by
  intro idx f x1 x2
  obtain ⟨hlo, hhi⟩ : 40426 ≤ difference x1 x2 ∧ difference x1 x2 ≤ 13176712 := difference_amplitudeRom_bounds rfl
  have hpos : 0 < difference x1 x2 := by omega
  exact ⟨hlo, hhi, Int.mul_nonneg hpos.le (Int.natCast_nonneg _), difference_mul_fraction_lt hhi f,
    interpStep_nonneg hpos.le f, Int.le_sub_one_of_lt (interpStep_lt_difference hpos f),
    interpStep_eq_zero_iff hpos.le f⟩

end Sys2Proof.Machine
end

section
/-! PROOFS. Request words (R60, R61, R67, R68): the word by its two fields, what it decodes to by those fields, the two
inverse laws of decoder and encoder, and the rows of the operation table. -/

namespace Sys2Proof

/-- A request word is its `OP` field times `2^256` plus its `ANGLE` field (R60). -/
theorem toNat_eq_op_angle (w : Request) : w.toNat = (opField w).toNat * 2 ^ 256 + (angleField w).toNat := by
  have hop : (opField w).toNat = w.toNat / 2 ^ 256 := by
    have hw := w.isLt
    rw [opField, ← BitVec.testBit_toNat, Nat.toNat_testBit]
    omega
  rw [hop, angleField, BitVec.extractLsb'_toNat, Nat.shiftRight_zero, Nat.div_add_mod']

theorem encode_sin_toNat (a : Angle) : (encode (.sin a)).toNat = 0 * 2 ^ 256 + a.toNat :=
  Nat.mod_eq_of_lt (by have := a.isLt; omega)

theorem encode_cos_toNat (a : Angle) : (encode (.cos a)).toNat = 1 * 2 ^ 256 + a.toNat :=
  Nat.mod_eq_of_lt (by have := a.isLt; omega)

/-- The `OP` bit alone selects SIN, and the operand is the `ANGLE` field (R61, R67). -/
theorem decode_eq_sin_iff {w : Request} {a : Angle} : decode w = .sin a ↔ opField w = false ∧ angleField w = a := by
  cases hop : opField w <;> simp [decode, hop]

/-- The `OP` bit alone selects COS, and the operand is the `ANGLE` field (R61, R67). -/
theorem decode_eq_cos_iff {w : Request} {a : Angle} : decode w = .cos a ↔ opField w = true ∧ angleField w = a := by
  cases hop : opField w <;> simp [decode, hop]

@[simp] theorem encode_decode (w : Request) : encode (decode w) = w := by
  apply BitVec.eq_of_toNat_eq
  rw [toNat_eq_op_angle w]
  cases hop : opField w with
  | false => rw [decode_eq_sin_iff.2 ⟨hop, rfl⟩, encode_sin_toNat, Bool.toNat_false]
  | true => rw [decode_eq_cos_iff.2 ⟨hop, rfl⟩, encode_cos_toNat, Bool.toNat_true]

/-- A number of 257 bits is read as the request word it is. -/
theorem decodeTableWord_of_lt (nbits : Nat) {w : Nat} (h : w < 2 ^ 257) :
    decodeTableWord nbits w = some (decode (BitVec.ofNat 257 w)) := by
  rw [decodeTableWord, decodeNumber]
  split
  · rfl
  · omega

/-- A number of more than 257 bits is refused (log 11). -/
theorem decodeTableWord_of_le (nbits : Nat) {w : Nat} (h : 2 ^ 257 ≤ w) : decodeTableWord nbits w = none := by
  rw [decodeTableWord, decodeNumber]
  split
  · omega
  · rfl

/-- Settles O4: the encoder puts the fields in their places, and a word is given by its fields. -/
theorem decodeAndEncodeAreInverse : Obligations.DecodeAndEncodeAreInverse := by
  refine ⟨decode_encode, encode_decode, fun i nbits => ?_, fun nbits _ => decodeTableWord_of_le nbits⟩
  have hlt : (encode i).toNat < 2 ^ 257 := by have := (encode i).isLt; omega
  rw [decodeTableWord_of_lt nbits hlt, BitVec.ofNat_toNat, BitVec.setWidth_eq, decode_encode]

/-- Settles O3: the fields of an encoded operation are the ones that it decodes from. -/
theorem requestWordLayout : Obligations.RequestWordLayout := by
  intro a
  obtain ⟨hsinOp, hsinAngle⟩ := decode_eq_sin_iff.1 (decode_encode (.sin a))
  obtain ⟨hcosOp, hcosAngle⟩ := decode_eq_cos_iff.1 (decode_encode (.cos a))
  exact ⟨encode_sin_toNat a, hsinOp, hsinAngle, encode_cos_toNat a, hcosOp, hcosAngle⟩

/-- The operation table with the one bit of its patterns and masks named (R67). -/
theorem opTable_eq : opTable =
    [⟨"SIN", 0#257, BitVec.twoPow 257 256⟩, ⟨"COS", BitVec.twoPow 257 256, BitVec.twoPow 257 256⟩] := by
  decide +kernel

theorem holds_sinRow (w : Request) : OpRow.holds ⟨"SIN", 0#257, BitVec.twoPow 257 256⟩ w = !opField w := by
  rw [OpRow.holds, BitVec.and_twoPow, ← opField]
  cases opField w <;> decide +kernel

theorem holds_cosRow (w : Request) :
    OpRow.holds ⟨"COS", BitVec.twoPow 257 256, BitVec.twoPow 257 256⟩ w = opField w := by
  rw [OpRow.holds, BitVec.and_twoPow, ← opField]
  cases opField w <;> decide +kernel

theorem mnemonic_decode (w : Request) : (decode w).mnemonic = if opField w then "COS" else "SIN" := by
  rw [decode, apply_ite Instr.mnemonic]
  rfl

/-- Settles O5: the mask of both rows is the `OP` bit, which alone selects the operation. -/
theorem everyWordHasOneTableRow : Obligations.EveryWordHasOneTableRow := by
  refine ⟨fun w r hr => ?_, fun w => ?_⟩
  · rw [opTable_eq, List.mem_pair] at hr
    rw [mnemonic_decode]
    obtain rfl | rfl := hr
    · rw [holds_sinRow]
      cases opField w <;> decide
    · rw [holds_cosRow]
      cases opField w <;> decide
  · rw [opTable_eq, List.filter_cons, List.filter_cons, holds_sinRow, holds_cosRow]
    cases opField w <;> rfl

/-- Settles O1: each word is written as its `OP` digit in front of its angle. -/
theorem writtenRequestsDecode : Obligations.WrittenRequestsDecode := by
  refine ⟨decode_eq_of_toNat (op := false) ?_, decode_eq_of_toNat (op := true) ?_, decode_eq_of_toNat (op := false) ?_,
    decode_eq_of_toNat (op := true) ?_, decode_eq_of_toNat (op := true) ?_⟩
  all_goals decide +kernel

/-- Settles O2: the angle is the `ANGLE` field, and bit 256 is the `OP` field. -/
theorem bit256SelectsOperation : Obligations.Bit256SelectsOperation := by
  refine fun w => ⟨angleField w, fun k hk => ?_, fun h => decode_eq_sin_iff.2 ⟨h, rfl⟩,
    fun h => decode_eq_cos_iff.2 ⟨h, rfl⟩⟩
  rw [angleField, BitVec.getLsbD_extractLsb', Nat.zero_add, decide_eq_true hk, Bool.true_and]

end Sys2Proof
end

section
/-! PROOFS. The loader of request programs (R70): which angles, statements and programs it takes, each part once, and the
whole state that it answers. -/

namespace Sys2Proof.Machine

/-- A computation of two parts succeeds when both do. -/
theorem bind_eq_ok_iff {ε α β : Type} {x : Except ε α} {f : α → Except ε β} {b : β} :
    x >>= f = .ok b ↔ ∃ a, x = .ok a ∧ f a = .ok b := by
  cases x with
  | error e => simp [bind, Except.bind]
  | ok a => simp [bind, Except.bind]

theorem exists_map_ok_iff {ε α β : Type} {x : Except ε α} {f : α → β} :
    (∃ b, x.map f = .ok b) ↔ ∃ a, x = .ok a := by
  cases x <;> simp [Except.map]

/-- An angle expression spells a `u256` exactly when its value is one (R70). -/
theorem AngleExpr.exists_toAngle_iff (e : AngleExpr) : (∃ a, e.toAngle = .ok a) ↔ e.inRange = true := by
  cases h : e.inRange <;> simp [AngleExpr.toAngle, h]

/-- A statement after the first place has its cycles when it is well formed and no READY (R70). -/
theorem Stmt.exists_drives_iff (t : Stmt) :
    (∃ ds, t.drives = .ok ds) ↔ t.wf = true ∧ t.isReady = false := by
  cases t with
  | sin e => simp [Stmt.drives, Stmt.wf, Stmt.isReady, exists_map_ok_iff, e.exists_toAngle_iff]
  | cos e => simp [Stmt.drives, Stmt.wf, Stmt.isReady, exists_map_ok_iff, e.exists_toAngle_iff]
  | wait n => simp [Stmt.drives, Stmt.wf, Stmt.isReady]
  | ready pattern => simp [Stmt.drives, Stmt.isReady]
  | reset => simp [Stmt.drives, Stmt.wf, Stmt.isReady]

theorem drivesOf_cons_eq_ok_iff {t : Stmt} {rest : List Stmt} {ds : List Drive} :
    drivesOf (t :: rest) = .ok ds ↔
      ∃ here, t.drives = .ok here ∧ ∃ after, drivesOf rest = .ok after ∧ here ++ after = ds := by
  simp [drivesOf, bind_eq_ok_iff, pure, Except.pure]

theorem exists_drivesOf_iff (body : List Stmt) :
    (∃ ds, drivesOf body = .ok ds) ↔ ∀ t ∈ body, t.wf = true ∧ t.isReady = false := by
  induction body with
  | nil => simp [drivesOf]
  | cons t rest ih =>
    rw [List.forall_mem_cons, ← t.exists_drives_iff, ← ih]
    simp only [drivesOf_cons_eq_ok_iff]
    constructor
    · rintro ⟨_, here, hhere, after, hafter, -⟩
      exact ⟨⟨here, hhere⟩, after, hafter⟩
    · rintro ⟨⟨here, hhere⟩, after, hafter⟩
      exact ⟨_, here, hhere, after, hafter, rfl⟩

theorem exists_readyLevels_iff (pattern : Option (List Bool)) :
    (∃ levels, readyLevels pattern = .ok levels) ↔ pattern ≠ some [] := by
  cases pattern with
  | none => simp [readyLevels]
  | some levels =>
    cases levels with
    | nil => simp [readyLevels]
    | cons b rest => simp [readyLevels, List.getLast?_cons]

/-- A program is admitted when its leading READY, if any, has a level, and the rest is well formed without READY (R70). -/
theorem Program.wf_iff (p : Program) :
    p.wf = true ↔ (splitReady p).1 ≠ some [] ∧ ∀ t ∈ (splitReady p).2, t.wf = true ∧ t.isReady = false := by
  cases p with
  | nil => simp [Program.wf, Program.readyFirst, splitReady]
  | cons t rest =>
    cases t <;> simp [Program.wf, Program.readyFirst, splitReady, Stmt.wf, Stmt.isReady, forall_and, and_assoc]

/-- The loaded state: the inputs to come are the program's, and everything else is as it was. -/
theorem State.load_eq_ok_iff {s t : State} {p : Program} :
    s.load p = .ok t ↔ ∃ levels, readyLevels (splitReady p).1 = .ok levels ∧
      ∃ ds, drivesOf (splitReady p).2 = .ok ds ∧
        { s with drives := ds, readies := levels.1, readyRest := levels.2 } = t := by
  simp [State.load, bind_eq_ok_iff, pure, Except.pure]

/-- Settles O6: the two parts of the loader succeed exactly on the two parts of an admitted program, and the loaded state
differs from the old one in the inputs to come. -/
theorem loaderAdmitsWellFormedPrograms : Obligations.LoaderAdmitsWellFormedPrograms := by
  refine fun s p => ⟨?_, fun t h => ?_⟩
  · rw [p.wf_iff, ← exists_readyLevels_iff, ← exists_drivesOf_iff]
    simp only [State.load_eq_ok_iff]
    constructor
    · rintro ⟨_, levels, hlevels, ds, hds, -⟩
      exact ⟨⟨levels, hlevels⟩, ds, hds⟩
    · rintro ⟨⟨levels, hlevels⟩, ds, hds⟩
      exact ⟨_, levels, hlevels, ds, hds, rfl⟩
  · obtain ⟨levels, -, ds, -, rfl⟩ := State.load_eq_ok_iff.1 h
    exact ⟨rfl, rfl, rfl⟩

end Sys2Proof.Machine
end

section
/-! PROOFS. Results and response words (R63, R123): the word of a result by its sign, and the bounds that the table's full
scale gives to the magnitude and the rescaler. -/

namespace Sys2Proof.Machine

/-- The two's complement word of a result of at most 64 bits: `2^64` is added to a negative one (R63). -/
theorem sext64_toNat {result : Int} (hlo : -(2 ^ 63) ≤ result) (hhi : result < 2 ^ 63) :
    ((sext64 result).toNat : Int) = result + 2 ^ 64 * if result < 0 then 1 else 0 := by
  rw [sext64, BitVec.toNat_ofInt]
  split <;> omega

/-- The bits above a magnitude of 60 bits are copies of the sign (R63). -/
theorem getLsbD_sext64 {result : Int} (hlo : -(2 ^ 60) ≤ result) (hhi : result < 2 ^ 60) {k : Nat} (hk : 60 ≤ k)
    (hk' : k ≤ 63) : (sext64 result).getLsbD k = decide (result < 0) := by
  have hword := sext64_toNat (result := result) (by omega) (by omega)
  rw [getLsbD_eq_div_mod, decide_eq_decide]
  split at hword <;> interval_cases k <;> omega

/-- Settles O43: `10^18` is below `2^60`, so bits 63:60 are the sign, which says whether `2^64` was added. -/
theorem responseCarriesTheResult : Obligations.ResponseCarriesTheResult := by
  intro result hlo hhi
  have hbits {k : Nat} := getLsbD_sext64 (result := result) (k := k) (by omega) (by omega)
  refine ⟨fun k => hbits, ?_⟩
  rw [hbits (by norm_num) le_rfl, sext64_toNat (by omega) (by omega)]
  simp

theorem natMag_le {x1 x2 f : Nat} (odd : Bool) (h : x1 ≤ x2) (hf : f ≤ 2 ^ 16) : natMag odd x1 x2 f ≤ x2 := by
  have hstep : (x2 - x1) * f / 2 ^ 16 ≤ x2 - x1 :=
    Nat.div_le_of_le_mul (by rw [mul_comm]; exact Nat.mul_le_mul_right _ hf)
  cases odd
  · exact Nat.sub_le _ _
  · calc x1 + (x2 - x1) * f / 2 ^ 16 ≤ x1 + (x2 - x1) := Nat.add_le_add_left hstep _
      _ = x2 := Nat.add_sub_cancel' h

theorem romList_getD_le_amp : ∀ k < 257, (romList.getD k 0).toNat ≤ Config.amp := by
  decide +kernel

/-- Interpolation over the table stays within full scale (R103). -/
theorem magnitude_amplitudeRom_bounds (c : Cyclic) :
    0 ≤ magnitude amplitudeRom c ∧ magnitude amplitudeRom c ≤ 2 ^ 31 - 1 := by
  have hidx := (tableIndex c).isLt
  have hle := natMag_le (isOddQuadrant c) (romList_getD_le_succ _ hidx) (interp c).isLt.le
  have hamp := romList_getD_le_amp _ (Nat.succ_lt_succ hidx)
  rw [magnitude_amplitudeRom]
  exact ⟨Int.natCast_nonneg _, Int.ofNat_le.2 (hle.trans hamp)⟩

theorem applySign_bounds {mag n : Int} (neg : Bool) (hlo : 0 ≤ mag) (hhi : mag ≤ n) :
    -n ≤ applySign neg mag ∧ applySign neg mag ≤ n := by
  cases neg <;> simp only [applySign] <;> omega

/-- The rescaler takes full scale to `10^18` and nothing beyond it (R113). -/
theorem rescale_bounds {sine : Int} (hlo : -(2 ^ 31 - 1) ≤ sine) (hhi : sine ≤ 2 ^ 31 - 1) :
    -(10 ^ 18) ≤ rescale sine ∧ rescale sine ≤ 10 ^ 18 := by
  have habs : (rescale sine).natAbs ≤ 10 ^ 18 := by
    rw [rescale, Int.natAbs_tdiv]
    exact Nat.div_le_of_le_mul (natAbs_mul_scale_le hlo hhi)
  omega

theorem sineCore_amplitudeRom_bounds (phase : Angle) :
    -(10 ^ 18) ≤ sineCore amplitudeRom phase ∧ sineCore amplitudeRom phase ≤ 10 ^ 18 := by
  obtain ⟨hlo, hhi⟩ := magnitude_amplitudeRom_bounds (normalizeAngle phase)
  obtain ⟨hlo', hhi'⟩ := applySign_bounds (isNegativeQuadrant (normalizeAngle phase)) hlo hhi
  exact rescale_bounds hlo' hhi'

theorem resultOf_eq (i : Instr) : resultOf i = sineCore amplitudeRom (phaseOf i) := by
  cases i <;> rfl

/-- Settles O49: an operation's result is the datapath's at its phase, and it fits the 64-bit word. -/
theorem resultsAreBounded : Obligations.ResultsAreBounded := by
  intro i
  obtain ⟨hlo, hhi⟩ := resultOf_eq i ▸ sineCore_amplitudeRom_bounds (phaseOf i)
  exact ⟨hlo, hhi, BitVec.toInt_ofInt_eq_self (by norm_num) (by omega) (by omega)⟩

end Sys2Proof.Machine
end

section
/-! PROOFS. Phase adder and normalizer (R80 to R82): the wrapped sum and what its lost carry does to the reduced phase,
and the cell of reduced phases that each cyclic value stands for. -/

namespace Sys2Proof.Machine

/-- What a lost carry out of bit 255 is worth in the reduced phase. -/
theorem two_pow_256_mod_twoPi : 2 ^ 256 % Config.twoPi = 1213325524996631572 := by norm_num

/-- Settles O25: the phase adder is the wrapped sum, and SIN does not use it. -/
theorem phaseAdderWraps : Obligations.PhaseAdderWraps :=
  fun a => ⟨rfl, phaseAdd_toNat a⟩

/-- Settles O26: the reduced phase is below `TWO_PI`, so it fits 63 bits and its rescaled value fits 30. -/
theorem normalizerReducesThenRescales : Obligations.NormalizerReducesThenRescales :=
  fun phase => ⟨rfl, (reduce_lt phase).trans (by norm_num), normalizeAngle_toNat phase⟩

theorem rescaleCycle_mono {m m' : Nat} (hle : m ≤ m') (hlt : m' < Config.twoPi) :
    (rescaleCycle m).toNat ≤ (rescaleCycle m').toNat := by
  rw [rescaleCycle_toNat m (hle.trans_lt hlt), rescaleCycle_toNat m' hlt]
  exact Nat.div_le_div_right (Nat.mul_le_mul_left _ hle)

/-- A quarter turn is exact on both scales: `TWO_PI` is four times `PI_OVER_TWO`, and the cycle four times `2^28`. -/
theorem rescaleCycle_quarter {j : Nat} (hj : j < 4) : (rescaleCycle (j * Config.piOverTwo)).toNat = j * 2 ^ 28 := by
  have hlt : j * Config.piOverTwo < Config.twoPi := Nat.mul_lt_mul_of_pos_right hj (by norm_num)
  have hscale : Config.cycleUnits * (j * Config.piOverTwo) = j * 2 ^ 28 * Config.twoPi := by ring
  rw [rescaleCycle_toNat _ hlt, hscale, Nat.mul_div_cancel _ twoPi_pos]

/-- Settles O27: multiplication and floor division are monotone, and the quarter turns divide without remainder. -/
theorem cyclicIsMonotoneWithExactQuarters : Obligations.CyclicIsMonotoneWithExactQuarters :=
  ⟨fun _ _ => rescaleCycle_mono, fun _ => rescaleCycle_quarter⟩

/-- The cell of a cyclic value, without a division. -/
theorem rescaleCycle_toNat_eq_iff {m : Nat} (hm : m < Config.twoPi) (c : Nat) :
    (rescaleCycle m).toNat = c ↔ c * Config.twoPi ≤ 2 ^ 30 * m ∧ 2 ^ 30 * m < (c + 1) * Config.twoPi := by
  rw [rescaleCycle_toNat m hm, Nat.div_eq_iff twoPi_pos]
  simp only [Config.cycleUnits, Config.twoPi]
  omega

/-- Settles O28: the cell's ends divided by `2^30`, rounded up. -/
theorem cyclicCellBounds : Obligations.CyclicCellBounds := by
  refine ⟨fun m hm c _ => ?_, fun m hm => ?_⟩
  · rw [rescaleCycle_toNat_eq_iff hm]
    simp only [Config.twoPi]
    omega
  · rw [← BitVec.toNat_inj, BitVec.toNat_ofNat, Nat.zero_mod, rescaleCycle_toNat_eq_iff hm]
    simp only [Config.twoPi]
    omega

/-- Adding what a lost carry is worth gives the reduced phase of the sum that did not lose it. -/
theorem reduce_add_lost_carry (phase : Angle) :
    (reduce phase + 1213325524996631572) % Config.twoPi = (phase.toNat + 2 ^ 256) % Config.twoPi := by
  rw [← two_pow_256_mod_twoPi, reduce, ← Nat.add_mod]

/-- Settles O29: the wrapped sum loses at most one carry, and the rest follows from what that carry is worth. -/
theorem cosWrapBand : Obligations.CosWrapBand := by
  intro a
  have ha := a.isLt
  have hsum : (theta true a).toNat = (a.toNat + Config.piOverTwo) % 2 ^ 256 := phaseAdd_toNat a
  have hcarry : a.toNat + Config.piOverTwo < 2 ^ 256 + 2 ^ 256 := Nat.add_lt_add ha (by norm_num)
  refine ⟨fun hbelow => by omega, fun hband => ?_⟩
  have hwrapped : (theta true a).toNat = a.toNat + Config.piOverTwo - 2 ^ 256 := by omega
  have hexact : (theta true a).toNat + 2 ^ 256 = a.toNat + Config.piOverTwo := by omega
  exact ⟨hwrapped, by rw [reduce_add_lost_carry, hexact]⟩

/-- Whole turns do not change the reduced phase. -/
theorem reduce_eq_of_turns {p q : Angle} {j : Nat} (h : q.toNat = p.toNat + j * Config.twoPi) : reduce q = reduce p := by
  rw [reduce, h, Nat.add_mul_mod_self_right, ← reduce]

/-- Settles O30: the normalizer sees the reduced phase alone. -/
theorem normalizerIsPeriodic : Obligations.NormalizerIsPeriodic :=
  fun _ _ _ h => congrArg rescaleCycle (reduce_eq_of_turns h)

/-- Settles O31: `2^256` is worth 1213325524996631572 modulo `TWO_PI`, not 0. -/
theorem unsignedWrapIsNotNegation : Obligations.UnsignedWrapIsNotNegation := by
  intro x a _ hx ha
  have hturn : (2 ^ 256 : Int) % Config.twoPi = 1213325524996631572 := mod_cast two_pow_256_mod_twoPi
  calc (reduce a : Int) = (2 ^ 256 - x) % Config.twoPi := by
        rw [reduce, ha, Int.natCast_emod, Nat.cast_sub hx, Nat.cast_pow, Nat.cast_ofNat]
    _ = (2 ^ 256 % Config.twoPi - x) % Config.twoPi := (Int.emod_sub_emod _ _ _).symm
    _ = (1213325524996631572 - x) % Config.twoPi := by rw [hturn]

end Sys2Proof.Machine
end

section
/-! PROOFS. Quadrant and index of a cyclic angle (R90 to R97): the fields, the quadrant as the number of whole quarter turns
in the reduced phase, and the bits that no field reads. -/

namespace Sys2Proof.Machine

/-- Settles O32: each field is its bits of the cyclic angle's number. -/
theorem cyclicFields : Obligations.CyclicFields :=
  fun c => ⟨idxRaw_toNat c, interp_toNat c, by rw [isOddQuadrant_eq, decide_eq_true_iff],
    by rw [isNegativeQuadrant_eq, decide_eq_true_iff]⟩

/-- Settles O34: the mirror on numbers, and the two indices as they are read. -/
theorem mirroredIndex : Obligations.MirroredIndex :=
  fun _ => ⟨mirror_toNat _ _, lowIndex_val _, highIndex_val _⟩

/-- The quadrant number, bits 29:28, counts the whole quarter turns: a quarter is exact on both scales. -/
theorem rescaleCycle_div_quarter {m : Nat} (hm : m < Config.twoPi) :
    (rescaleCycle m).toNat / 2 ^ 28 = m / Config.piOverTwo := by
  have hscale : Config.twoPi * 2 ^ 28 = Config.cycleUnits * Config.piOverTwo := by norm_num
  rw [rescaleCycle_toNat m hm, Nat.div_div_eq_div_mul, hscale, Nat.mul_div_mul_left _ _ (by norm_num)]

theorem isOddQuadrant_rescaleCycle {m : Nat} (hm : m < Config.twoPi) :
    isOddQuadrant (rescaleCycle m) = decide (m / Config.piOverTwo % 2 = 0) := by
  rw [isOddQuadrant_eq, rescaleCycle_div_quarter hm]

theorem isNegativeQuadrant_rescaleCycle {m : Nat} (hm : m < Config.twoPi) :
    isNegativeQuadrant (rescaleCycle m) = decide (m / Config.piOverTwo / 2 % 2 = 1) := by
  rw [isNegativeQuadrant_eq, pow_succ, ← Nat.div_div_eq_div_mul, rescaleCycle_div_quarter hm]

/-- The quadrant bits of a reduced phase in its quarter `j`. -/
theorem quadrant_rescaleCycle {m j : Nat} (hj : j < 4) (hlo : j * Config.piOverTwo ≤ m)
    (hhi : m < (j + 1) * Config.piOverTwo) :
    isOddQuadrant (rescaleCycle m) = decide (j % 2 = 0) ∧
      isNegativeQuadrant (rescaleCycle m) = decide (j / 2 % 2 = 1) := by
  have hm : m < Config.twoPi := hhi.trans_le (Nat.mul_le_mul_right Config.piOverTwo hj)
  have hquarter : m / Config.piOverTwo = j := Nat.div_eq_of_lt_le hlo hhi
  rw [isOddQuadrant_rescaleCycle hm, isNegativeQuadrant_rescaleCycle hm, hquarter]
  exact ⟨rfl, rfl⟩

/-- Settles O33: the four ranges are the quarters 0 to 3 of `TWO_PI`. -/
theorem quadrantsByPhase : Obligations.QuadrantsByPhase := by
  refine fun m hm => ⟨fun hhi => ?_, fun hlo hhi => ?_, fun hlo hhi => ?_, fun hlo => ?_⟩
  · exact quadrant_rescaleCycle (j := 0) (by norm_num) (by omega) (by omega)
  · exact quadrant_rescaleCycle (j := 1) (by norm_num) (by omega) (by omega)
  · exact quadrant_rescaleCycle (j := 2) (by norm_num) (by omega) (by omega)
  · exact quadrant_rescaleCycle (j := 3) (by norm_num) (by omega) (by omega)

/-- The result reads the cyclic angle through its four fields alone. -/
theorem resultOfCyclic_eq_of_fields (rom : Memory) {c c' : Cyclic} (hidx : idxRaw c = idxRaw c')
    (hinterp : interp c = interp c') (hodd : isOddQuadrant c = isOddQuadrant c')
    (hneg : isNegativeQuadrant c = isNegativeQuadrant c') : resultOfCyclic rom c = resultOfCyclic rom c' := by
  simp only [resultOfCyclic, magnitude, tableIndex, hidx, hinterp, hodd, hneg]

/-- Numbers that agree from bit `j` upward agree from every later bit upward. -/
theorem div_two_pow_eq_of_le {x y j k : Nat} (h : x / 2 ^ j = y / 2 ^ j) (hjk : j ≤ k) : x / 2 ^ k = y / 2 ^ k := by
  rw [← Nat.add_sub_of_le hjk, pow_add, ← Nat.div_div_eq_div_mul, h, Nat.div_div_eq_div_mul]

/-- Settles O35: every field lies above bits 3:0, so it is the same in both angles. -/
theorem lowCyclicBitsAreDiscarded : Obligations.LowCyclicBitsAreDiscarded := by
  intro rom c c' h
  apply resultOfCyclic_eq_of_fields
  · rw [← BitVec.toNat_inj, idxRaw_toNat, idxRaw_toNat, div_two_pow_eq_of_le h (by norm_num)]
  · rw [← BitVec.toNat_inj, interp_toNat, interp_toNat, h]
  · rw [isOddQuadrant_eq, isOddQuadrant_eq, div_two_pow_eq_of_le h (by norm_num)]
  · rw [isNegativeQuadrant_eq, isNegativeQuadrant_eq, div_two_pow_eq_of_le h (by norm_num)]

end Sys2Proof.Machine
end

section
/-! PROOFS. The interpolator (R100 to R104): the magnitude by quadrant parity from its two words, what it is at a sample point,
and its range over the table. -/

namespace Sys2Proof.Machine

/-- Odd quadrants ascend from the word at `idx` (R103). -/
theorem magnitude_of_odd (rom : Memory) {c : Cyclic} (h : isOddQuadrant c = true) :
    magnitude rom c = (rom.readWord (lowIndex (tableIndex c))).toNat +
      interpStep (rom.readWord (lowIndex (tableIndex c))) (rom.readWord (highIndex (tableIndex c))) (interp c) := by
  rw [magnitude, sineMag, if_pos h]

/-- Even quadrants descend from the word at `idx + 1` (R103). -/
theorem magnitude_of_even (rom : Memory) {c : Cyclic} (h : isOddQuadrant c = false) :
    magnitude rom c = (rom.readWord (highIndex (tableIndex c))).toNat -
      interpStep (rom.readWord (lowIndex (tableIndex c))) (rom.readWord (highIndex (tableIndex c))) (interp c) := by
  rw [magnitude, sineMag, if_neg (Bool.eq_false_iff.1 h)]

/-- Settles O36: each branch of R103 with the difference and the floor of R101 and R102 written out. -/
theorem magnitudeFromTwoReads : Obligations.MagnitudeFromTwoReads := by
  intro rom c x1 x2
  split
  case isTrue hodd => exact magnitude_of_odd rom hodd
  case isFalse heven => exact magnitude_of_even rom (Bool.eq_false_iff.2 heven)

@[simp] theorem interpStep_zero (x1 x2 : RomWord) : interpStep x1 x2 0#16 = 0 := by
  simp [interpStep]

theorem tableIndex_toNat (c : Cyclic) :
    (tableIndex c).toNat = if isOddQuadrant c then (idxRaw c).toNat else 255 - (idxRaw c).toNat :=
  mirror_toNat _ _

/-- Settles O39: the step is 0 at a sample point, which leaves the word at `idx` or at `idx + 1`; the mirror makes these the
words at `idx_raw` and at `256 − idx_raw`. -/
theorem samplePointsReadTheTable : Obligations.SamplePointsReadTheTable := by
  intro rom c k hinterp hk
  have hidx := tableIndex_toNat c
  cases hodd : isOddQuadrant c
  case true =>
    simp only [hodd, if_true] at hk hidx
    have hlow : lowIndex (tableIndex c) = k := Fin.ext (by rw [lowIndex_val, hidx, hk])
    rw [magnitude_of_odd rom hodd, hinterp, interpStep_zero, add_zero, hlow]
  case false =>
    simp only [hodd, Bool.false_eq_true, if_false] at hk hidx
    have hraw := (idxRaw c).isLt
    have hhigh : highIndex (tableIndex c) = k := Fin.ext (by rw [highIndex_val]; omega)
    rw [magnitude_of_even rom hodd, hinterp, interpStep_zero, sub_zero, hhigh]

/-- Between words that do not fall, a greater fraction makes a step no smaller (R102). -/
theorem interpStep_mono {x1 x2 : RomWord} (h : 0 ≤ difference x1 x2) {f g : Fraction} (hfg : f.toNat ≤ g.toNat) :
    interpStep x1 x2 f ≤ interpStep x1 x2 g :=
  Int.ediv_le_ediv (by norm_num) (mul_le_mul_of_nonneg_left (Int.ofNat_le.2 hfg) h)

/-- The least magnitude on descending between each two neighbours of the table, which is at the last fraction: 202, from
position 1 down to position 0 (R104). -/
theorem romList_descended_ge : ∀ k < 256,
    202 ≤ ((romList.getD (k + 1) 0).toNat : Int) -
      interpStep (romList.getD k 0) (romList.getD (k + 1) 0) (BitVec.allOnes 16) := by
  decide +kernel

/-- The two words that are read at an index ascend strictly (R42, R101). -/
theorem difference_amplitudeRom_pos (idx : TableIndex) :
    0 < difference (amplitudeRom.readWord (lowIndex idx)) (amplitudeRom.readWord (highIndex idx)) :=
  (show (0 : Int) < 40426 by norm_num).trans_le
    (difference_amplitudeRom_bounds (j := lowIndex idx) (k := highIndex idx) rfl).1

/-- In odd quadrants the step is below the difference, so the magnitude stays below the second word (R104). -/
theorem magnitude_amplitudeRom_lt_of_odd {c : Cyclic} (h : isOddQuadrant c = true) :
    magnitude amplitudeRom c < Config.amp := by
  have hstep := interpStep_lt_difference (difference_amplitudeRom_pos (tableIndex c)) (interp c)
  have hamp := romList_getD_le_amp _ (highIndex (tableIndex c)).isLt
  rw [← readWord_amplitudeRom] at hamp
  rw [difference] at hstep
  rw [magnitude_of_odd _ h]
  omega

/-- In even quadrants the magnitude is no less than at the last fraction of its interval (R104). -/
theorem le_magnitude_amplitudeRom_of_even {c : Cyclic} (h : isOddQuadrant c = false) :
    202 ≤ magnitude amplitudeRom c := by
  have hlast : (interp c).toNat ≤ (BitVec.allOnes 16).toNat := Nat.le_pred_of_lt (interp c).isLt
  have hstep := interpStep_mono (difference_amplitudeRom_pos (tableIndex c)).le hlast
  rw [magnitude_of_even _ h]
  rw [readWord_amplitudeRom, readWord_amplitudeRom] at hstep ⊢
  exact (romList_descended_ge _ (tableIndex c).isLt).trans (sub_le_sub_left hstep _)

/-- Settles O38: full scale bounds both parities, and the direction of the interpolation excludes one end in each. -/
theorem magnitudeRange : Obligations.MagnitudeRange := by
  intro c
  obtain ⟨hlo, hhi⟩ := magnitude_amplitudeRom_bounds c
  exact ⟨fun hodd => ⟨hlo, Int.le_sub_one_of_lt (magnitude_amplitudeRom_lt_of_odd hodd)⟩,
    fun heven => ⟨le_magnitude_amplitudeRom_of_even heven, hhi⟩⟩

end Sys2Proof.Machine
end

section
/-! PROOFS. Sign applier and rescaler (R110 to R113): the range of the signed value, and the rescaler's growth and its exact
points. -/

namespace Sys2Proof.Machine

/-- Settles O40: the sign is the definition's two branches, and the magnitude is non-negative and at most full scale, so either
sign of it stays within full scale. -/
theorem signedSine : Obligations.SignedSine := by
  intro c
  obtain ⟨hlo, hhi⟩ := magnitude_amplitudeRom_bounds c
  exact ⟨rfl, applySign_bounds _ hlo hhi⟩

/-- Truncation toward zero keeps the order, as scaling by `10^18` does (R113). -/
theorem rescale_mono : Monotone rescale := fun _ _ hle =>
  Int.tdiv_le_tdiv (by norm_num) (mul_le_mul_of_nonneg_right hle (by norm_num))

/-- Full scale cancels the divisor (R113). -/
theorem rescale_amp : rescale Config.amp = Config.scale :=
  Int.mul_tdiv_cancel_left _ (by norm_num)

theorem rescale_zero : rescale 0 = 0 := by
  rw [rescale, zero_mul, Int.zero_tdiv]

/-- The least non-zero magnitude is the floor of `10^18 / (2^31 − 1)` (R113). -/
theorem rescale_one : rescale 1 = 465661287 := by
  rw [← Nat.cast_one, rescale_natCast]
  norm_num

/-- Settles O42: odd symmetry, growth and the exact points, each a lemma of its own, and the bound that full scale gives. -/
theorem rescaleProperties : Obligations.RescaleProperties :=
  ⟨rescale_neg, fun _ _ hle => rescale_mono hle, rescale_amp, rescale_zero, rescale_one, fun _ => rescale_bounds⟩

end Sys2Proof.Machine
end

section
/-! PROOFS. The two operations (R120 to R126): the block's function is the pseudocode, what an operation answers depends on
its phase through the normalizer alone, and the exact values at quarter turns. -/

namespace Sys2Proof.Machine

/-- SIN puts its angle into the datapath as it is (R121). -/
theorem blockF_sin (a : Angle) : blockF false a = sineCore amplitudeRom a := rfl

/-- COS puts the wrapped sum into the same datapath (R122). -/
theorem blockF_cos (a : Angle) : blockF true a = sineCore amplitudeRom (phaseAdd a) := rfl

@[simp] theorem phaseOf_sin (a : Angle) : phaseOf (.sin a) = a := rfl

@[simp] theorem phaseOf_cos (a : Angle) : phaseOf (.cos a) = phaseAdd a := rfl

/-- Settles O44: the datapath over the table is the pseudocode stage by stage, and the phase of COS is the wrapped sum. -/
theorem blockFunctionIsThePseudocode : Obligations.BlockFunctionIsThePseudocode := by
  refine ⟨sineCore_amplitudeRom, fun a => ⟨?_, ?_⟩⟩
  · rw [blockF_sin, sineCore_amplitudeRom]
  · rw [blockF_cos, sineCore_amplitudeRom, phaseAdd_toNat]

/-- Operations whose phases have the same cyclic angle answer the same at every state: the datapath begins with the
normalizer (R82, R126). -/
theorem exec_eq_of_normalizeAngle {i j : Instr} (h : normalizeAngle (phaseOf i) = normalizeAngle (phaseOf j))
    (s : State) : exec i s = exec j s := by
  rw [exec_eq_clockEdge, exec_eq_clockEdge, sineCore, sineCore, h]

/-- Settles O47: the phase of COS is the angle of that SIN. -/
theorem cosIsShiftedSin : Obligations.CosIsShiftedSin := by
  intro a s
  apply exec_eq_of_normalizeAngle
  rw [phaseOf_cos, phaseOf_sin, phaseAdd]

/-- Settles O48: below the bound the sum does not wrap, so the phases differ by one whole turn. -/
theorem sinIsPeriodic : Obligations.SinIsPeriodic := by
  intro a s ha
  have hturn : (a + BitVec.ofNat 256 Config.twoPi).toNat = a.toNat + 1 * Config.twoPi := by
    rw [BitVec.toNat_add, BitVec.toNat_ofNat, Nat.add_mod_mod, Nat.mod_eq_of_lt (Nat.add_lt_of_lt_sub ha), one_mul]
  apply exec_eq_of_normalizeAngle
  rw [phaseOf_sin, phaseOf_sin, normalizerIsPeriodic _ _ 1 hturn]

/-- Settles O52: a ready block captures the datapath's word at the operation's phase, which reads the ROM and nothing else of
the state. -/
theorem resultDependsOnRequestAlone : Obligations.ResultDependsOnRequestAlone := by
  intro i s s' hrom hs hs'
  refine ⟨_, _, exec_eq_clockEdge i s, exec_eq_clockEdge i s', ?_, ?_, ?_⟩
  · rw [State.clockEdge_vq, s.nextPending_of_inReady _ hs, Option.isSome_some]
  · rw [State.clockEdge_vq, s'.nextPending_of_inReady _ hs', Option.isSome_some]
  · rw [State.clockEdge_rq, State.clockEdge_rq, s.nextPending_of_inReady _ hs, s'.nextPending_of_inReady _ hs', hrom]

/-- The exact sine of `j` quarter turns at scale `10^18`. -/
def quarterSine (j : Nat) : Int := if j % 2 = 0 then 0 else if j / 2 % 2 = 1 then -(10 ^ 18) else 10 ^ 18

/-- A whole number of quarters is a sample point: an ascending quadrant starts at the first word of the table, a descending
one at the last (R100, R103). -/
theorem magnitude_of_quarter {c : Cyclic} {j : Nat} (h : c.toNat = j * 2 ^ 28) :
    magnitude amplitudeRom c = if isOddQuadrant c then 0 else (Config.amp : Int) := by
  have hraw : (idxRaw c).toNat = 0 := by rw [idxRaw_toNat]; omega
  have hinterp : interp c = 0#16 := by rw [← BitVec.toNat_inj, interp_toNat, BitVec.toNat_ofNat]; omega
  have hsample := fun k => samplePointsReadTheTable amplitudeRom c k hinterp
  rw [hraw] at hsample
  cases hodd : isOddQuadrant c
  case true => rw [hsample 0 (by rw [hodd]; rfl), readWord_amplitudeRom]; rfl
  case false => rw [hsample 256 (by rw [hodd]; rfl), readWord_amplitudeRom]; rfl

/-- The stages after the normalizer at a whole number of quarters: 0 or full scale, with the quadrant's sign, and both are
rescaled exactly (R113). -/
theorem resultOfCyclic_of_quarter {c : Cyclic} {j : Nat} (h : c.toNat = j * 2 ^ 28) :
    resultOfCyclic amplitudeRom c = quarterSine j := by
  have hodd : isOddQuadrant c = decide (j % 2 = 0) := by
    rw [isOddQuadrant_eq, h, Nat.mul_div_cancel _ (by norm_num)]
  have hneg : isNegativeQuadrant c = decide (j / 2 % 2 = 1) := by
    rw [isNegativeQuadrant_eq, h, pow_succ' 2 28, Nat.mul_div_mul_right _ _ (by norm_num)]
  simp only [resultOfCyclic, applySign, magnitude_of_quarter h, hodd, hneg, quarterSine, decide_eq_true_eq]
  split_ifs
  · rw [neg_zero, rescale_zero]
  · rw [rescale_neg, rescale_amp]; rfl
  · exact rescale_zero
  · exact rescale_amp

/-- A full turn is four times `PI_OVER_TWO`, exactly (R6). -/
theorem four_mul_piOverTwo : 4 * Config.piOverTwo = Config.twoPi := rfl

/-- Any number of quarter turns: whole turns drop out, and the remaining quarters are exact on the cyclic scale (R81, R82). -/
theorem sineCore_of_quarterTurns {phase : Angle} {j : Nat} (h : phase.toNat = j * Config.piOverTwo) :
    sineCore amplitudeRom phase = quarterSine (j % 4) := by
  have hreduce : reduce phase = j % 4 * Config.piOverTwo := by
    rw [reduce, h, ← four_mul_piOverTwo, Nat.mul_mod_mul_right]
  rw [sineCore, normalizeAngle, hreduce]
  exact resultOfCyclic_of_quarter (rescaleCycle_quarter (Nat.mod_lt j (by norm_num)))

/-- Settles O51: below one cyclic unit the cyclic angle is 0, and a multiple of `TWO_PI` is four times as many quarter
turns. -/
theorem smallAnglesAndFullTurnsGiveZero : Obligations.SmallAnglesAndFullTurnsGiveZero := by
  refine ⟨fun a ha => ?_, fun a j hturns => ?_⟩
  · have hcyclic : normalizeAngle a = 0#30 :=
      (cyclicCellBounds.2 (reduce a) (reduce_lt a)).2 ((Nat.mod_le _ _).trans (Nat.le_of_lt_succ ha))
    rw [blockF_sin, sineCore, hcyclic]
    exact resultOfCyclic_of_quarter (j := 0) rfl
  · have hquarters : a.toNat = j * 4 * Config.piOverTwo := by rw [hturns, mul_assoc, four_mul_piOverTwo]
    rw [blockF_sin, sineCore_of_quarterTurns hquarters, Nat.mul_mod_left]
    rfl

/-- Settles O50: the first six phases are 0 to 3 quarter turns, where COS adds one; the worked examples are computed. -/
theorem knownValues : Obligations.KnownValues := by
  refine ⟨?_, ?_, ?_, ?_, ?_, ?_, ?examples⟩
  · exact sineCore_of_quarterTurns (j := 0) rfl
  · exact sineCore_of_quarterTurns (j := 1) rfl
  · exact sineCore_of_quarterTurns (j := 2) rfl
  · exact sineCore_of_quarterTurns (j := 3) rfl
  · exact sineCore_of_quarterTurns (phase := phaseAdd _) (j := 1) rfl
  · exact sineCore_of_quarterTurns (phase := phaseAdd _) (j := 3) rfl
  case examples => decide +kernel

end Sys2Proof.Machine
end

section
/-! PROOFS. The circuit of R170 stage by stage: each word is the exact integer of its stage, because that integer fits the
stage's width. -/

namespace Sys2Proof.Machine.Circuit

/-- The reduced phase is below `TWO_PI`, which has 63 bits (R81). -/
theorem reduce_toNat (phase : Angle) : (reduce phase).toNat = Machine.reduce phase := by
  have hmod : (phase % BitVec.ofNat 256 Config.twoPi).toNat = Machine.reduce phase := BitVec.toNat_umod
  have hlt : Machine.reduce phase < 2 ^ 63 := (reduce_lt phase).trans (by norm_num)
  rw [reduce, BitVec.toNat_setWidth, hmod, Nat.mod_eq_of_lt hlt]

/-- Appending 30 zero bits multiplies by `2^30`, in words that hold the whole product (R83). -/
theorem product_toNat (m : BitVec 63) : (product m).toNat = Config.cycleUnits * m.toNat := by
  rw [product, BitVec.toNat_append, BitVec.toNat_ofNat, Nat.zero_mod, Nat.or_zero, Nat.shiftLeft_eq, mul_comm]

/-- The circuit's normalizer is the exact one (R81 to R83). -/
theorem cyclic_eq_normalizeAngle (phase : Angle) : cyclic phase = normalizeAngle phase := by
  apply BitVec.eq_of_toNat_eq
  rw [cyclic, BitVec.toNat_setWidth, BitVec.toNat_udiv, product_toNat, reduce_toNat]
  rfl

/-- `cyclic[28]` repeated over eight bits, the mask of the XOR gates (R93, R96). -/
theorem signExtend_bit28 (c : Cyclic) :
    (c.extractLsb' 28 1).signExtend 8 = if isOddQuadrant c then 0#8 else BitVec.allOnes 8 := by
  have hbit : c.extractLsb' 28 1 = BitVec.ofBool (c.getLsbD 28) := by
    apply BitVec.eq_of_getLsbD_eq
    simp
  rw [hbit, isOddQuadrant]
  cases c.getLsbD 28 <;> rfl

/-- Eight XOR gates are the mirror: `255 − idx_raw` is the complement of `idx_raw` (R96). -/
theorem index_eq_tableIndex (c : Cyclic) : index c = tableIndex c := by
  rw [index, signExtend_bit28, tableIndex, mirror, ← idxRaw]
  cases isOddQuadrant c
  · exact BitVec.xor_allOnes.trans (BitVec.allOnes_sub_eq_not _).symm
  · exact BitVec.xor_zero

/-- Between words that do not fall by more than 24 bits, nothing is lost from their difference (R101). -/
theorem difference_toNat {x1 x2 : RomWord} (hlo : 0 ≤ Machine.difference x1 x2)
    (hhi : Machine.difference x1 x2 < 2 ^ 24) : ((difference x1 x2).toNat : Int) = Machine.difference x1 x2 := by
  rw [Machine.difference] at hlo hhi ⊢
  rw [difference, BitVec.toNat_setWidth, BitVec.toNat_sub]
  omega

/-- A product of 24 by 16 bits fits 40, and its upper 24 bits are the floor (R102). -/
theorem delta_toNat (d : BitVec 24) (f : Fraction) : (delta d f).toNat = d.toNat * f.toNat / 2 ^ 16 := by
  have hproduct : d.toNat * f.toNat < 2 ^ 24 * 2 ^ 16 := Nat.mul_lt_mul'' d.isLt f.isLt
  have hd : d.toNat % 2 ^ 40 = d.toNat := Nat.mod_eq_of_lt (d.isLt.trans (by norm_num))
  have hf : f.toNat % 2 ^ 40 = f.toNat := Nat.mod_eq_of_lt (f.isLt.trans (by norm_num))
  rw [delta, BitVec.toNat_setWidth, BitVec.toNat_ushiftRight, BitVec.toNat_mul, BitVec.toNat_setWidth,
    BitVec.toNat_setWidth, hd, hf, Nat.shiftRight_eq_div_pow]
  omega

theorem delta_difference_toNat {x1 x2 : RomWord} (hlo : 0 ≤ Machine.difference x1 x2)
    (hhi : Machine.difference x1 x2 < 2 ^ 24) (f : Fraction) :
    ((delta (difference x1 x2) f).toNat : Int) = interpStep x1 x2 f := by
  rw [delta_toNat, interpStep, ← difference_toNat hlo hhi]
  push_cast
  rfl

/-- Sum and difference are taken modulo `2^31`, and the magnitude fits these 31 bits (R103). -/
theorem sineMag_toNat {odd : Bool} {x1 x2 : RomWord} {f : Fraction} {dl : BitVec 24}
    (hdl : (dl.toNat : Int) = interpStep x1 x2 f) (hlo : 0 ≤ Machine.sineMag odd x1 x2 f)
    (hhi : Machine.sineMag odd x1 x2 f ≤ 2 ^ 31 - 1) :
    ((sineMag odd x1 x2 dl).toNat : Int) = Machine.sineMag odd x1 x2 f := by
  rw [Machine.sineMag, ← hdl] at hlo hhi ⊢
  rw [sineMag]
  cases odd
  · simp only [Bool.false_eq_true, if_false, BitVec.toNat_sub, BitVec.toNat_setWidth] at hlo hhi ⊢
    omega
  · simp only [if_true, BitVec.toNat_add, BitVec.toNat_setWidth] at hlo hhi ⊢
    omega

/-- A sign and 31 bits of magnitude fit 32 bits of two's complement (R110). -/
theorem sine_toInt (neg : Bool) (mag : BitVec 31) : (sine neg mag).toInt = applySign neg mag.toNat := by
  have hmag : (mag.toNat : Int) ≤ 2 ^ 31 - 1 := by have := mag.isLt; omega
  obtain ⟨hlo, hhi⟩ := applySign_bounds neg (Int.natCast_nonneg _) hmag
  have hwide : mag.setWidth 32 = BitVec.ofInt 32 mag.toNat := by rw [BitVec.ofInt_natCast, BitVec.ofNat_toNat]
  have hword : sine neg mag = BitVec.ofInt 32 (applySign neg mag.toNat) := by
    rw [sine, hwide, ← BitVec.ofInt_neg, applySign, apply_ite (BitVec.ofInt 32)]
  rw [hword, BitVec.toInt_ofInt_eq_self (by norm_num) (by omega) (by omega)]

/-- Sign extension and the product of R112 are exact modulo `2^92`. -/
theorem scaled_eq_ofInt (sn : BitVec 32) : scaled sn = BitVec.ofInt 92 (sn.toInt * Config.scale) := by
  rw [BitVec.ofInt_mul, BitVec.ofInt_natCast, scaled, BitVec.signExtend]

theorem scaled_toInt {sn : BitVec 32} (hlo : -(2 ^ 31 - 1) ≤ sn.toInt) (hhi : sn.toInt ≤ 2 ^ 31 - 1) :
    (scaled sn).toInt = sn.toInt * Config.scale := by
  have habs : (sn.toInt * Config.scale).natAbs ≤ 2147483647 * 10 ^ 18 := natAbs_mul_scale_le hlo hhi
  rw [scaled_eq_ofInt, BitVec.toInt_ofInt_eq_self (by norm_num) (by omega) (by omega)]

/-- A product of at most full scale divides to a result of 61 bits, which R114 carries in 64. -/
theorem response_scaled {sn : BitVec 32} (hlo : -(2 ^ 31 - 1) ≤ sn.toInt) (hhi : sn.toInt ≤ 2 ^ 31 - 1) :
    response (scaled sn) = sext64 (rescale sn.toInt) := by
  obtain ⟨hlo', hhi'⟩ := rescale_bounds hlo hhi
  have hquotient : ((scaled sn).sdiv (BitVec.ofNat 92 Config.amp)).toInt = rescale sn.toInt := by
    rw [BitVec.toInt_sdiv_of_ne_or_ne _ _ (.inr (by decide)), scaled_toInt hlo hhi]
    rfl
  have hnarrow : (((scaled sn).sdiv (BitVec.ofNat 92 Config.amp)).setWidth 61).toInt = rescale sn.toInt := by
    rw [← BitVec.signExtend_eq_setWidth_of_le _ (by norm_num), BitVec.signExtend, hquotient,
      BitVec.toInt_ofInt_eq_self (by norm_num) (by omega) (by omega)]
  rw [response, BitVec.signExtend, hnarrow, sext64]

/-- The circuit's interpolator at a cyclic angle: its two ROM reads and its magnitude word. -/
def magnitude (rom : Memory) (c : Cyclic) : BitVec 31 :=
  let x1 := rom.readWord (lowIndex (index c))
  let x2 := rom.readWord (highIndex (index c))
  sineMag (!c.getLsbD 28) x1 x2 (delta (difference x1 x2) (interp c))

theorem sineCore_eq (rom : Memory) (phase : Angle) :
    sineCore rom phase =
      response (scaled (sine (isNegativeQuadrant (cyclic phase)) (magnitude rom (cyclic phase)))) := by
  rw [isNegativeQuadrant, beq_true]
  rfl

/-- The table's steps fit 24 bits and its magnitudes 31, so the interpolator's words are exact over it. -/
theorem magnitude_toNat (c : Cyclic) :
    ((magnitude amplitudeRom c).toNat : Int) = Machine.magnitude amplitudeRom c := by
  obtain ⟨hlo, hhi⟩ := magnitude_amplitudeRom_bounds c
  obtain ⟨-, hstep⟩ := difference_amplitudeRom_bounds
    (j := lowIndex (tableIndex c)) (k := highIndex (tableIndex c)) rfl
  have hdelta := delta_difference_toNat (difference_amplitudeRom_pos (tableIndex c)).le
    (hstep.trans_lt (by norm_num)) (interp c)
  rw [magnitude, index_eq_tableIndex, ← beq_false, ← isOddQuadrant]
  exact sineMag_toNat hdelta hlo hhi

/-- The signed word over the table is the exact signed value (R110). -/
theorem sine_magnitude_toInt (c : Cyclic) :
    (sine (isNegativeQuadrant c) (magnitude amplitudeRom c)).toInt =
      applySign (isNegativeQuadrant c) (Machine.magnitude amplitudeRom c) := by
  rw [sine_toInt, magnitude_toNat]

end Sys2Proof.Machine.Circuit
end

section
/-! PROOFS. No exceptions (R140, R142): every operation and every step answers a next state, and no stage of the datapath
overflows at the widths of R170. -/

namespace Sys2Proof.Machine

/-- Settles O9: an operation and a step are each one clock edge, and the type of faults is empty. -/
theorem nothingEverFaults : Obligations.NothingEverFaults := by
  refine ⟨fun i s => ⟨_, exec_eq_clockEdge i s⟩, fun s => ?_, nofun⟩
  obtain ⟨u, request, -, hstep⟩ := step_eq_clockEdge s
  exact ⟨_, hstep⟩

/-- Settles O53: the circuit's cyclic angle is the exact one, the signed word at it is exact and within full scale, and within
full scale the rescaler's word is exact. -/
theorem circuitWidthsSuffice : Obligations.CircuitWidthsSuffice := by
  intro phase
  obtain ⟨-, hlo, hhi⟩ := signedSine (normalizeAngle phase)
  rw [← Circuit.sine_magnitude_toInt] at hlo hhi
  rw [Circuit.sineCore_eq, Circuit.cyclic_eq_normalizeAngle, Circuit.response_scaled hlo hhi,
    Circuit.sine_magnitude_toInt, sineCore, resultOfCyclic]

end Sys2Proof.Machine
end

section
/-! PROOFS. Reset and hazards (R160 to R173): the reset edge, latency and the held result, and the inputs that an edge does
not accept or cannot know. -/

namespace Sys2Proof.Machine

/-- Settles O13: the fields of the reset state. -/
theorem resetStateOfTheBlock : Obligations.ResetStateOfTheBlock := ⟨rfl, rfl, rfl⟩

theorem exists_step (s : State) : ∃ t, step s = .next t := nothingEverFaults.2.1 s

/-- A block that is not ready accepts nothing, whatever is presented (R24). -/
theorem State.accepted_of_not_inReady {s : State} (h : s.inReady = false) : s.accepted = none := by
  cases ha : s.accepted with
  | none => rfl
  | some i => exact absurd (s.offered_of_accepted i ha).1 (by simp [h])

theorem State.outValid_of_rst {s : State} (hr : s.rst = true) : s.outValid = false := by
  rw [State.outValid, hr, Bool.not_true, Bool.false_and]

theorem State.outValid_of_rq {s : State} {r : Response} (hr : s.rst = false) (hq : s.rq = some r) :
    s.outValid = true := by
  have hv : s.vq = true := Option.isSome_of_mem hq
  rw [State.outValid, hr, hv, Bool.not_false, Bool.true_and]

theorem State.delivered_of_not_outValid {s : State} (h : s.outValid = false) : s.delivered = none := by
  simp [State.delivered, State.dlv, h]

/-- Without reset, a consumer that is ready makes the block ready, held result or not (R23). -/
theorem State.inReady_of_outReady {s : State} (hr : s.rst = false) (ho : s.outReady = true) : s.inReady = true :=
  s.inReady_eq_true_iff.2 ⟨hr, .inr ho⟩

/-- Settles O12: `rst` holds down both handshakes, and the reset case of R25 comes before all others. -/
theorem resetEdgeClearsTheBlock : Obligations.ResetEdgeClearsTheBlock := by
  intro s hrom hr
  have hready : s.inReady = false := s.inReady_eq_false_iff.2 (.inl hr)
  have hvalid : s.outValid = false := State.outValid_of_rst hr
  refine ⟨hready, hvalid, State.accepted_of_not_inReady hready, State.delivered_of_not_outValid hvalid, ?_, fun i => ?_⟩
  · obtain ⟨t, hstep⟩ := exists_step s
    obtain ⟨request, ht⟩ := State.pending_of_step hstep
    exact ⟨t, hstep, ht.trans (s.nextPending_of_rst request hr), (State.rom_of_step hstep).trans hrom⟩
  · exact ⟨_, exec_eq_clockEdge i s, s.nextPending_of_rst _ hr, hrom⟩

/-- Latency one (R171): the cycle after an acceptance holds the answer. -/
theorem State.rq_after_one_of_accepted {s : State} {i : Instr} (hrom : s.rom.wf) (h : s.accepted = some i) :
    (s.after 1).rq = some (responseOf i) := by
  rw [State.after_one_of_step (step_of_known s (s.drive_known_of_accepted i h))]
  exact State.nextPending_of_accepted hrom h

/-- A held word that is neither taken nor reset is held in the next cycle (R168). -/
theorem State.rq_after_one_of_held {s : State} {r : Response} (hq : s.rq = some r) (hr : s.rst = false)
    (ho : s.outReady = false) : (s.after 1).rq = some r := by
  obtain ⟨t, hstep⟩ := exists_step s
  obtain ⟨request, ht⟩ := State.pending_of_step hstep
  rw [State.after_one_of_step hstep]
  exact ht.trans (s.nextPending_of_held request r hr hq ho)

/-- A held word stays through any number of cycles in which it is neither taken nor reset. -/
theorem State.rq_after_of_held {s : State} {r : Response} (hq : s.rq = some r) (n : Nat)
    (hheld : ∀ k < n, (s.after k).rst = false ∧ (s.after k).outReady = false) : (s.after n).rq = some r := by
  induction n with
  | zero => exact hq
  | succ n ih =>
    obtain ⟨hr, ho⟩ := hheld n n.lt_succ_self
    rw [s.after_add n 1]
    exact State.rq_after_one_of_held (ih fun k hk => hheld k (Nat.lt_succ_of_lt hk)) hr ho

/-- Settles O16: the answer is held after one cycle, and it stays until it is taken, where the ready block delivers it. -/
theorem acceptedResultIsHeldUntilTaken : Obligations.AcceptedResultIsHeldUntilTaken := by
  intro s i n hrom ha hheld
  have hq : (s.after (n + 1)).rq = some (responseOf i) := by
    rw [s.after_succ]
    exact State.rq_after_of_held (State.rq_after_one_of_accepted hrom ha) n fun k hk => s.after_succ k ▸ hheld k hk
  refine ⟨hq, fun hr => State.outValid_of_rq hr hq, fun hr ho => ?_⟩
  rw [State.delivered_of_inReady (State.inReady_of_outReady hr ho), hq]

/-- Settles O17: the answer is held after one cycle, and R23's equation says when the block is ready. -/
theorem latencyAndThroughput : Obligations.LatencyAndThroughput := by
  refine ⟨fun s i hrom ha => ?_, fun s hr ho => State.inReady_of_outReady hr ho,
    fun s hr hv => s.inReady_eq_true_iff.2 ⟨hr, .inl hv⟩, fun s hv ho => s.inReady_eq_false_iff.2 (.inr ⟨hv, ho⟩)⟩
  obtain ⟨t, hstep⟩ := exists_step s
  have hq : t.rq = some (responseOf i) := State.after_one_of_step hstep ▸ State.rq_after_one_of_accepted hrom ha
  exact ⟨t, hstep, hq, fun hr => State.outValid_of_rq hr hq⟩

/-- The edge of a block that is not ready: the registers as without a request, and the environment moved on with nothing
accepted, whatever stands on the request port (R167). -/
theorem step_of_not_inReady {s : State} (h : s.inReady = false) :
    ∃ t, step s = .next t ∧ t.pending = s.nextPending none ∧ t.rom = s.rom ∧ t.drives = nextDrives false s.drives ∧
      t.readies = s.readies.tail := by
  obtain ⟨u, request, hu, hstep⟩ := step_eq_clockEdge s
  have hpending := s.nextPending_of_not_inReady request h
  have hdrives : nextDrives (s.acc request.isSome) s.drives = nextDrives false s.drives := by
    rw [s.acc_of_not_inReady _ h]
  refine ⟨_, hstep, ?_⟩
  obtain rfl | rfl | rfl := hu <;> exact ⟨hpending, rfl, hdrives, rfl⟩

theorem step_of_low {s : State} (h : s.portIn.inValid = .low) : step s = .next (s.clockEdge none) := by
  rw [step, State.fetch, h]
  rfl

/-- Settles O19: what the edge of a block that is not ready, and an edge without a request, do is the same function of
states that differ only in the request port. -/
theorem unacceptedInputsAreNotRead : Obligations.UnacceptedInputsAreNotRead := by
  intro s rst v v' q q' rest
  refine ⟨fun hn => ?_, ?_⟩
  · obtain ⟨t, hstep, hpending, hrom, hdrives, hreadies⟩ := step_of_not_inReady hn
    -- `in_ready` reads neither `in_valid` nor the bus (R23)
    have hn' : State.inReady { s with drives := .cycle rst v' q' :: rest } = false := hn
    obtain ⟨t', hstep', hpending', hrom', hdrives', hreadies'⟩ := step_of_not_inReady hn'
    exact ⟨t, t', hstep, hstep', hpending.trans hpending'.symm, hrom.trans hrom'.symm, hdrives.trans hdrives'.symm,
      hreadies.trans hreadies'.symm⟩
  · rw [step_of_low rfl, step_of_low rfl]
    rfl

/-- A request with unknown bits: the edge offers a free value (R173). -/
theorem step_of_unknown_bus {s : State} (hv : s.portIn.inValid = .high) (hq : s.portIn.inReq = .unknown) :
    step s = .next s.unknownEdge := by
  rw [step, State.fetch, hv, hq]
  rfl

/-- An unknown `in_valid` before a known request, settled as 1 by the free bit (R173). -/
theorem step_of_unknown_valid_accept {s : State} {w : Request} (hv : s.portIn.inValid = .unknown)
    (hq : s.portIn.inReq = .driven w) (hb : Config.freeAccept s.draws = true) : step s = exec (decode w) s.draw := by
  rw [step, State.fetch, hv, hq, hb]
  rfl

/-- An unknown `in_valid` settled as 0 by the free bit: the edge without a request (R173). -/
theorem step_of_unknown_valid_refuse {s : State} (hv : s.portIn.inValid = .unknown)
    (hb : Config.freeAccept s.draws = false) : step s = .next s.draw.idleEdge := by
  rw [step, State.fetch, hv, hb]
  rfl

/-- Settles O20: a ready block captures the free value of unknown request bits, and the free bit decides between the edge of
the operation and the edge without a request. -/
theorem unknownInputsTakeFreeValues : Obligations.UnknownInputsTakeFreeValues := by
  intro s hready hrom
  have hr : s.rst = false := (s.inReady_eq_true_iff.1 hready).1
  refine ⟨fun hv hq => ⟨_, step_of_unknown_bus hv hq, s.nextPending_of_inReady _ hready, rfl⟩, fun w hv hq => ?_⟩
  cases hb : Config.freeAccept s.draws with
  | true =>
    have hexec := (step_of_unknown_valid_accept hv hq hb).trans (exec_eq_clockEdge (decode w) s.draw)
    refine ⟨_, hexec, rfl, fun _ => ?_, nofun⟩
    rw [State.clockEdge_rq, State.draw_nextPending, s.nextPending_of_inReady _ hready, State.draw_rom, hrom,
      ← responseOf_eq]
  | false =>
    exact ⟨_, step_of_unknown_valid_refuse hv hb, rfl, nofun, fun _ => State.nextPending_of_not_acc hr rfl⟩

end Sys2Proof.Machine
end
